-- ==== Sys2Proof/Word.lean ====
section
/-! DEFINITION. The widths of the engine's values (00_scope.md R7, R9): a payload byte, the 16-bit
checksum word and the 32-bit bus word. Every value is unsigned. -/

namespace Sys2Proof

/-- The input unit: one payload byte (R7). -/
abbrev Byte := BitVec 8

/-- The checksum word width `W` = 16 (R7): ACC, RESULT, a code, a payload word. -/
abbrev Half := BitVec 16

/-- The bus data width, also the length of a command word (R7). -/
abbrev Word := BitVec 32

/-- A register word index `0..3` (R25). -/
abbrev RegIndex := BitVec 2

end Sys2Proof
end

