-- ==== Sys2Proof/Config.lean ====
section
/-! DEFINITION. The parameters the spec leaves OPEN, `CSUM_BASE` of every instance and `INSTANCES` (00_scope.md R8; 92_eei_decisions.md D24, D25).
None of them has a value a proof can see: a claim about the model holds whatever they are. -/

namespace Sys2Proof.Config

/-- `CSUM_BASE` of the engine that lies lowest, divided by 16. The platform chooses it (D25). -/
opaque csumBaseUnit : Nat

/-- How many 16-byte blocks lie between engine `k` and the next. The platform chooses it (D25). -/
opaque csumBaseGap : Nat → Nat

/-- `CSUM_BASE` of engine `k`: the byte address of its register word 0, "any 16-byte-aligned address"
(R8). The instances are told apart only by it (R86), so the bases differ; numbering the engines in the
order of their addresses is the model's (log entry 9). -/
def csumBase : Nat → Nat
  | 0 => 16 * csumBaseUnit
  | k + 1 => csumBase k + 16 * (csumBaseGap k + 1)

/-- `INSTANCES` less one. The system chooses it (D24). -/
opaque furtherEngines : Nat

/-- `INSTANCES`: the number of engines in a system, at least 1 (R8). -/
def engineCount : Nat := furtherEngines + 1

end Sys2Proof.Config
end

