-- ==== Sys2Proof/Syntax.lean ====
section
/-! DEFINITION. The instructions: one constructor for each row of spec/opcode_table.json, eight of
format C (command words, 30_encoding.md R43) and eight bus transactions (20_memory.md R25-R27). -/

namespace Sys2Proof

/-- One instruction, that is one bus transaction (R11), or one command that a write to CMD carries. -/
inductive Instr where
  /-- NOP, OP 0x0 (R69). -/
  | nop
  /-- CLR, OP 0x1 (R70). -/
  | clr
  /-- PUSHB, OP 0x2, with the byte `b = DATA[7:0]` (R60). -/
  | pushb (b : Byte)
  /-- PUSHW, OP 0x3, with the word `w = DATA[15:0]` (R61). -/
  | pushw (w : Half)
  /-- FINAL, OP 0x4 (R65). -/
  | final
  /-- VERIFY, OP 0x5, with the expected code `c = DATA[15:0]` (R66). -/
  | verify (c : Half)
  /-- ILLEGAL, the row of OP 0x6-0x7, with `op = d[31:28]` (R48, R71). -/
  | illegalLow (op : BitVec 4)
  /-- ILLEGAL, the row of OP 0x8-0xF, with `op = d[31:28]` (R48, R71). -/
  | illegalHigh (op : BitVec 4)
  /-- RD CMD: BusRead(0) (R75). -/
  | rdCmd
  /-- RD STATUS: BusRead(1) (R73). -/
  | rdStatus
  /-- RD ACC: BusRead(2) (R74). -/
  | rdAcc
  /-- RD RESULT: BusRead(3) (R74). -/
  | rdResult
  /-- WR CMD: BusWrite(0, d) (R26). -/
  | wrCmd (d : Word)
  /-- WR STATUS: BusWrite(1, d) (R72). -/
  | wrStatus (d : Word)
  /-- WR ACC: BusWrite(2, d) (R72). -/
  | wrAcc (d : Word)
  /-- WR RESULT: BusWrite(3, d) (R72). -/
  | wrResult (d : Word)
  deriving DecidableEq, Repr

end Sys2Proof
end

