-- ==== Sys2Proof/WellFormed.lean ====
section
/-! DEFINITION. Which terms of `Instr` are instructions: the two ILLEGAL rows each hold the opcodes of
their own row only (30_encoding.md R43). Every other operand has exactly the width of its field (R41),
so any value of it is legal. -/

namespace Sys2Proof

/-- The opcodes of the ILLEGAL row with match 0x60000000 under mask 0xE0000000: 0x6 and 0x7 (R43). -/
def opInLowIllegalRow (op : BitVec 4) : Bool := op == 0x6#4 || op == 0x7#4

/-- The opcodes of the ILLEGAL row with match 0x80000000 under mask 0x80000000: 0x8 to 0xF (R43). -/
def opInHighIllegalRow (op : BitVec 4) : Bool := decide (0x8#4 ≤ op)

/-- Well-formed instructions. -/
def Instr.wf : Instr → Bool
  | .illegalLow op => opInLowIllegalRow op
  | .illegalHigh op => opInHighIllegalRow op
  | .nop | .clr | .pushb _ | .pushw _ | .final | .verify _ => true
  | .rdCmd | .rdStatus | .rdAcc | .rdResult => true
  | .wrCmd _ | .wrStatus _ | .wrAcc _ | .wrResult _ => true

end Sys2Proof
end

