-- ==== Sys2Proof/Decode.lean ====
section
/-! DEFINITION. Decoding (30_encoding.md R39-R48, 20_memory.md R25) and, after it, encoding.

Command words and bus transactions are decoded as the spec says, without bytes: `decodeCommand` is R48
and `decodeTxn` is the register map of R25. The engine has no byte order of its own (R29), so the byte
FRAMES below are the model's convention for writing an instruction down (log entry 3): a command word is
4 bytes, a bus read 1 byte, a bus write 1 byte and its 4 data bytes, the least significant byte first. -/

namespace Sys2Proof

/-! ### Fields of a command word (R39) -/

/-- OP = `d[31:28]`: the field that alone selects the command (R39, R40). -/
def opField (d : Word) : BitVec 4 := d.extractLsb' 28 4

/-- DATA = `d[15:0]` (R39). -/
def dataField (d : Word) : Half := d.extractLsb' 0 16

/-- The byte operand `b = DATA[7:0]` of PUSHB (R41). -/
def byteField (d : Word) : Byte := d.extractLsb' 0 8

/-! ### Commands (R48) -/

/-- What a word written to CMD can decode to: the range of R48's `decode`. -/
inductive Command where
  | nop
  | clr
  | pushb (b : Byte)
  | pushw (w : Half)
  | final
  | verify (c : Half)
  | illegalLow (op : BitVec 4)
  | illegalHigh (op : BitVec 4)
  deriving DecidableEq, Repr

/-- R48's `decode`: total on all 32-bit words, by OP alone; RSVD is never looked at. -/
def decodeCommand (d : Word) : Command :=
  match (opField d).toNat with
  | 0 => .nop
  | 1 => .clr
  | 2 => .pushb (byteField d)
  | 3 => .pushw (dataField d)
  | 4 => .final
  | 5 => .verify (dataField d)
  | 6 => .illegalLow (opField d)
  | 7 => .illegalLow (opField d)
  | _ => .illegalHigh (opField d)

/-- The instruction of a decoded command. -/
def Command.toInstr : Command → Instr
  | .nop => .nop
  | .clr => .clr
  | .pushb b => .pushb b
  | .pushw w => .pushw w
  | .final => .final
  | .verify c => .verify c
  | .illegalLow op => .illegalLow op
  | .illegalHigh op => .illegalHigh op

/-- The command an instruction carries to CMD, if it does: a command row is its own command, WR CMD
carries the command its data decodes to (R26), and no other transaction reaches CMD as a write. -/
def Instr.command? : Instr → Option Command
  | .nop => some .nop
  | .clr => some .clr
  | .pushb b => some (.pushb b)
  | .pushw w => some (.pushw w)
  | .final => some .final
  | .verify c => some (.verify c)
  | .illegalLow op => some (.illegalLow op)
  | .illegalHigh op => some (.illegalHigh op)
  | .wrCmd d => some (decodeCommand d)
  | .rdCmd | .rdStatus | .rdAcc | .rdResult => none
  | .wrStatus _ | .wrAcc _ | .wrResult _ => none

/-! ### The opcode map of R43 as a table -/

/-- A row of the opcode map: a word belongs to it when `word & mask = match`. -/
structure OpcodeRow where
  matchBits : Word
  mask : Word
  deriving DecidableEq, Repr

/-- Whether the word `d` belongs to the row. -/
def OpcodeRow.hits (r : OpcodeRow) (d : Word) : Bool := d &&& r.mask == r.matchBits

/-- The row of R43 a command belongs to. -/
def Command.row : Command → OpcodeRow
  | .nop => ⟨0x00000000#32, 0xF0000000#32⟩
  | .clr => ⟨0x10000000#32, 0xF0000000#32⟩
  | .pushb _ => ⟨0x20000000#32, 0xF0000000#32⟩
  | .pushw _ => ⟨0x30000000#32, 0xF0000000#32⟩
  | .final => ⟨0x40000000#32, 0xF0000000#32⟩
  | .verify _ => ⟨0x50000000#32, 0xF0000000#32⟩
  | .illegalLow _ => ⟨0x60000000#32, 0xE0000000#32⟩
  | .illegalHigh _ => ⟨0x80000000#32, 0x80000000#32⟩

/-- The eight rows of R43, in the table's order. -/
def opcodeMap : List OpcodeRow :=
  [⟨0x00000000#32, 0xF0000000#32⟩, ⟨0x10000000#32, 0xF0000000#32⟩,
   ⟨0x20000000#32, 0xF0000000#32⟩, ⟨0x30000000#32, 0xF0000000#32⟩,
   ⟨0x40000000#32, 0xF0000000#32⟩, ⟨0x50000000#32, 0xF0000000#32⟩,
   ⟨0x60000000#32, 0xE0000000#32⟩, ⟨0x80000000#32, 0x80000000#32⟩]

/-- The bits of a command word that the engine looks at: OP, and the DATA bits R41 does not call
ignored. Two words that agree on them execute identically (R42). -/
def Command.usedBits : Command → Word
  | .nop | .clr | .final => 0xF0000000#32
  | .illegalLow _ | .illegalHigh _ => 0xF0000000#32
  | .pushb _ => 0xF00000FF#32
  | .pushw _ | .verify _ => 0xF000FFFF#32

/-! ### Bus transactions (R25-R27) -/

/-- The four registers of the register map (R25). -/
inductive BusReg where
  | cmd
  | status
  | acc
  | result
  deriving DecidableEq, Repr

/-- The register at a word index: every index is decoded (R25). -/
def BusReg.ofIndex (a : RegIndex) : BusReg :=
  match a.toNat with
  | 0 => .cmd
  | 1 => .status
  | 2 => .acc
  | _ => .result

/-- The word index of a register (R25). -/
def BusReg.index : BusReg → RegIndex
  | .cmd => 0#2
  | .status => 1#2
  | .acc => 2#2
  | .result => 3#2

/-- One bus transaction as the interface carries it: `BusRead(a)` or `BusWrite(a, d)` (R26, R27). -/
inductive Txn where
  | read (a : RegIndex)
  | write (a : RegIndex) (d : Word)
  deriving DecidableEq, Repr

/-- A bus read of a register. -/
def BusReg.readInstr : BusReg → Instr
  | .cmd => .rdCmd
  | .status => .rdStatus
  | .acc => .rdAcc
  | .result => .rdResult

/-- A bus write of a register. -/
def BusReg.writeInstr (d : Word) : BusReg → Instr
  | .cmd => .wrCmd d
  | .status => .wrStatus d
  | .acc => .wrAcc d
  | .result => .wrResult d

/-- The instruction of a bus transaction. -/
def decodeTxn : Txn → Instr
  | .read a => (BusReg.ofIndex a).readInstr
  | .write a d => (BusReg.ofIndex a).writeInstr d

/-! ### Byte frames (log entry 3) -/

/-- Why a byte sequence is no instruction. -/
inductive DecodeReject where
  /-- No frame has this many bytes. -/
  | frameLength
  /-- The head byte of a bus transaction has a bit above bit 2 (the table gives it bits 2..0 only). -/
  | headReserved
  /-- A one-byte frame whose head is a bus write: its 32-bit data is missing. -/
  | writeWithoutData
  /-- A five-byte frame whose head is a bus read: a read carries no data. -/
  | readWithData
  deriving DecidableEq, Repr

/-- A frame that was read: a command word, or a bus transaction. -/
inductive Frame where
  | command (d : Word)
  | transfer (t : Txn)
  deriving DecidableEq, Repr

/-- The 32-bit word of four bytes, least significant first. -/
def wordOfBytes (b0 b1 b2 b3 : Byte) : Word := b3 ++ b2 ++ b1 ++ b0

/-- Whether the head byte stays within the three bits the table gives it. -/
def headInRange (h : Byte) : Bool := h.extractLsb' 3 5 == 0#5

/-- Bit 2 of a head: 0 = BusRead, 1 = BusWrite (the table's "dir"). -/
def headIsWrite (h : Byte) : Bool := h.getLsbD 2

/-- Bits 1..0 of a head: the word index (the table's "a"). -/
def headIndex (h : Byte) : RegIndex := h.extractLsb' 0 2

/-- Reads one frame; total on any bytes. -/
def parseFrame : List Byte → Except DecodeReject Frame
  | [h] =>
    if !headInRange h then .error .headReserved
    else if headIsWrite h then .error .writeWithoutData
    else .ok (.transfer (.read (headIndex h)))
  | [b0, b1, b2, b3] => .ok (.command (wordOfBytes b0 b1 b2 b3))
  | [h, b0, b1, b2, b3] =>
    if !headInRange h then .error .headReserved
    else if headIsWrite h then .ok (.transfer (.write (headIndex h) (wordOfBytes b0 b1 b2 b3)))
    else .error .readWithData
  | _ => .error .frameLength

/-- The instruction of a frame. -/
def Frame.instr : Frame → Instr
  | .command d => (decodeCommand d).toInstr
  | .transfer t => decodeTxn t

/-- The bus transaction that carries a frame to the engine: a command word is written to CMD (R26). -/
def Frame.txn : Frame → Txn
  | .command d => .write 0#2 d
  | .transfer t => t

/-- The decoder on bytes: the instruction a frame stands for, or the name of what is wrong with it. -/
def decode (bs : List Byte) : Except DecodeReject Instr :=
  match parseFrame bs with
  | .ok f => .ok f.instr
  | .error e => .error e

/-! ### Encoding (R39, R43, R46) -/

/-- A command word from OP and DATA; RSVD is 0, as software should write it (R42, R46). -/
def commandWord (op : BitVec 4) (data : Half) : Word := op ++ 0#12 ++ data

/-- The word of a command, every ignored bit 0 (R46). -/
def encodeCommand : Command → Word
  | .nop => commandWord 0x0#4 0#16
  | .clr => commandWord 0x1#4 0#16
  | .pushb b => commandWord 0x2#4 (0#8 ++ b)
  | .pushw w => commandWord 0x3#4 w
  | .final => commandWord 0x4#4 0#16
  | .verify c => commandWord 0x5#4 c
  | .illegalLow op => commandWord op 0#16
  | .illegalHigh op => commandWord op 0#16

/-- The four bytes of a word, least significant first. -/
def bytesOfWord (d : Word) : List Byte :=
  [d.extractLsb' 0 8, d.extractLsb' 8 8, d.extractLsb' 16 8, d.extractLsb' 24 8]

/-- The head byte of a bus read. -/
def readHead (r : BusReg) : Byte := 0#5 ++ 0#1 ++ r.index

/-- The head byte of a bus write. -/
def writeHead (r : BusReg) : Byte := 0#5 ++ 1#1 ++ r.index

/-- The encoder: the frame of a well-formed instruction. -/
def encode : Instr → List Byte
  | .nop => bytesOfWord (encodeCommand .nop)
  | .clr => bytesOfWord (encodeCommand .clr)
  | .pushb b => bytesOfWord (encodeCommand (.pushb b))
  | .pushw w => bytesOfWord (encodeCommand (.pushw w))
  | .final => bytesOfWord (encodeCommand .final)
  | .verify c => bytesOfWord (encodeCommand (.verify c))
  | .illegalLow op => bytesOfWord (encodeCommand (.illegalLow op))
  | .illegalHigh op => bytesOfWord (encodeCommand (.illegalHigh op))
  | .rdCmd => [readHead .cmd]
  | .rdStatus => [readHead .status]
  | .rdAcc => [readHead .acc]
  | .rdResult => [readHead .result]
  | .wrCmd d => writeHead .cmd :: bytesOfWord d
  | .wrStatus d => writeHead .status :: bytesOfWord d
  | .wrAcc d => writeHead .acc :: bytesOfWord d
  | .wrResult d => writeHead .result :: bytesOfWord d

/-- The transaction that carries an instruction to the engine: a command is written to CMD (R26). -/
def Instr.txn : Instr → Txn
  | .rdCmd => .read 0#2
  | .rdStatus => .read 1#2
  | .rdAcc => .read 2#2
  | .rdResult => .read 3#2
  | .wrCmd d => .write 0#2 d
  | .wrStatus d => .write 1#2 d
  | .wrAcc d => .write 2#2 d
  | .wrResult d => .write 3#2 d
  | .nop => .write 0#2 (encodeCommand .nop)
  | .clr => .write 0#2 (encodeCommand .clr)
  | .pushb b => .write 0#2 (encodeCommand (.pushb b))
  | .pushw w => .write 0#2 (encodeCommand (.pushw w))
  | .final => .write 0#2 (encodeCommand .final)
  | .verify c => .write 0#2 (encodeCommand (.verify c))
  | .illegalLow op => .write 0#2 (encodeCommand (.illegalLow op))
  | .illegalHigh op => .write 0#2 (encodeCommand (.illegalHigh op))

/-! ### The host's numbering of a table row's bits -/

/-- The `n` bytes of the number `w`, bits 7..0 first. -/
def bytesOfNat : Nat → Nat → List Byte
  | 0, _ => []
  | n + 1, w => BitVec.ofNat 8 w :: bytesOfNat n (w / 256)

/-- A write head alone stands for the write with zero data: the table's row of a bus write has no bits
for the data word, and the bits above the row's are 0. -/
def padTransfer : List Byte → List Byte
  | [h] => if headIsWrite h then [h, 0#8, 0#8, 0#8, 0#8] else [h]
  | bs => bs

/-- The frame of a table word of `nbits` bits, numbered as spec/opcode_table.json numbers them. -/
def tableFrame (nbits w : Nat) : List Byte := padTransfer (bytesOfNat ((nbits + 7) / 8) w)

/-- The instruction the decoder reads from a table word. -/
def decodeTableWord (nbits w : Nat) : Option Instr :=
  match decode (tableFrame nbits w) with
  | .ok i => some i
  | .error _ => none

/-- The bus transaction that carries a table word to the engine. -/
def tableTxn (nbits w : Nat) : Option Txn :=
  match parseFrame (tableFrame nbits w) with
  | .ok f => some f.txn
  | .error _ => none

end Sys2Proof
end

