-- ==== Sys2Proof/Machine/State.lean ====
section
/-! DEFINITION. The state of the engine: the register tuple of 10_state.md R23 and, beside it, the
interface: the level of the reset input (70_reset_and_hazards.md R90), the bus cycles the host has still
to issue and the word its latest read returned. The engine has no memory and no program counter
(R14, R25). Also the reasons a step can stop, and the state after reset. -/

namespace Sys2Proof.Machine

/-- The architectural registers, the whole of them (R13, R23): 39 bits. A one-bit register is a `Bool`,
`true` for 1. -/
structure Regs where
  /-- ACC[15:0], the running one's-complement sum (R15). -/
  acc : Half
  /-- PHASE: `true` when the next byte pushed is the low byte of a word (R16). -/
  phase : Bool
  /-- RESULT[15:0], the latched code (R17). -/
  result : Half
  /-- DONE: RESULT is current (R19). -/
  done : Bool
  /-- MVALID: MATCH is current (R20). -/
  mvalid : Bool
  /-- MATCH: the verdict of the last VERIFY (R21). -/
  matched : Bool
  /-- ERR: sticky error flag (R22). -/
  err : Bool
  /-- ECAUSE[1:0]: cause of the first error (R22, R78). -/
  ecause : BitVec 2
  deriving DecidableEq, Repr

/-- The reset values of every register (R24, R89). -/
def Regs.reset : Regs :=
  { acc := 0x0000#16, phase := false, result := 0x0000#16, done := false, mvalid := false,
    matched := false, err := false, ecause := 0b00#2 }

/-- One instant of the engine's interface: the level of the reset input (R90), and the bus transaction
the host issues in that instant, if it issues one (R26, R27). -/
structure BusCycle where
  /-- `true` while reset is asserted. -/
  reset : Bool
  txn : Option Txn
  deriving DecidableEq, Repr

/-- The machine's state. -/
structure State where
  /-- The architectural registers (R23). -/
  regs : Regs
  /-- The level of the reset input in the latest instant (R90). -/
  resetIn : Bool
  /-- The MODEL's own: the bus cycles still to come, oldest first, in the host's issue order (R33). -/
  queue : List BusCycle
  /-- The MODEL's own: the word the latest bus read returned (R27), `none` before the first read. -/
  rdata : Option Word
  deriving DecidableEq, Repr

/-- Why the machine stops with a fault. -/
inductive Fault where
  /-- A state with ECAUSE = 0b11. Raised by `step` alone, before it takes a bus cycle: the code is reserved and never
  produced (R78), and 93_implementation_defined.md section 2 asks for a fault from a model that sees
  it. Safe: the machine stops where the spec gives no behaviour, and no step leads there. -/
  | ecauseReserved
  deriving DecidableEq, Repr

/-- Why the machine refuses an instruction. -/
inductive Refusal where
  /-- An instruction whose arm of `exec` has no meaning yet. Raised by no arm of this model. Safe. -/
  | notModelled (mnemonic : String)
  deriving DecidableEq, Repr

/-- The machine right after reset: every register at its reset value (R89), reset deasserted (R90), and
no bus cycle issued yet (log entries 1 and 2). -/
def State.reset : State :=
  { regs := Regs.reset, resetIn := false, queue := [], rdata := none }

end Sys2Proof.Machine
end

