-- ==== Sys2Proof/Machine/Flags.lean ====
section
/-! DEFINITION. The status flags: their layout in STATUS (10_state.md R18), the cause codes
(60_exceptions.md R78), and the changes the commands make to DONE, MVALID and MATCH (R19-R21). -/

namespace Sys2Proof.Machine

/-- STATUS: `zext_32({ECAUSE[1:0], ERR, MATCH, MVALID, DONE, PHASE})`; bits [31:7] read as zero
(R18, R27). -/
def Regs.statusWord (r : Regs) : Word :=
  0#25 ++ r.ecause ++ BitVec.ofBool r.err ++ BitVec.ofBool r.matched ++ BitVec.ofBool r.mvalid
    ++ BitVec.ofBool r.done ++ BitVec.ofBool r.phase

/-- ECAUSE of Err(ILLEGAL_OP) (R78). -/
def causeIllegalOp : BitVec 2 := 0b01#2

/-- ECAUSE of Err(RO_WRITE) (R78). -/
def causeRoWrite : BitVec 2 := 0b10#2

/-- The ECAUSE value that is reserved and never raised (R78). -/
def causeReserved : BitVec 2 := 0b11#2

/-- A push makes RESULT stale and drops the verdict: DONE, MVALID and MATCH all to 0 (R60, R61). -/
def Regs.markStale (r : Regs) : Regs := { r with done := false, mvalid := false, matched := false }

/-- FINAL: DONE to 1, MVALID and MATCH to 0 (R65). -/
def Regs.markDone (r : Regs) : Regs := { r with done := true, mvalid := false, matched := false }

/-- VERIFY: DONE and MVALID to 1, MATCH to the verdict (R66). -/
def Regs.markVerdict (verdict : Bool) (r : Regs) : Regs :=
  { r with done := true, mvalid := true, matched := verdict }

end Sys2Proof.Machine
end

