-- ==== Sys2Proof/Machine/Operands.lean ====
section
/-! DEFINITION. Operand forms: what a pushed byte or word contributes to the sum (41_accumulate.md R60,
R61), and how an access of a byte-addressed system selects a register (20_memory.md R25, R30, R32). -/

namespace Sys2Proof.Machine

/-- A byte in the high half of a word: `{b, 8'h00}` (R60). -/
def highContribution (b : Byte) : Half := b ++ 0#8

/-- A byte in the low half of a word: `{8'h00, b}` (R60). -/
def lowContribution (b : Byte) : Half := 0#8 ++ b

/-- What PUSHB adds: a high byte at PHASE 0, a low byte at PHASE 1 (R60). -/
def byteContribution (phase : Bool) (b : Byte) : Half :=
  if phase then lowContribution b else highContribution b

/-- `w[15:8]`, the earlier payload byte of a pushed word (R28, R61). -/
def earlierByte (w : Half) : Byte := w.extractLsb' 8 8

/-- `w[7:0]`, the later payload byte of a pushed word (R28, R61). -/
def laterByte (w : Half) : Byte := w.extractLsb' 0 8

/-- What PUSHW adds: the word at PHASE 0, `{w[7:0], w[15:8]}` at PHASE 1 (R61). -/
def wordContribution (phase : Bool) (w : Half) : Half :=
  if phase then laterByte w ++ earlierByte w else w

/-! ### A byte-addressed system (R8, R25, R30, R32) -/

/-- The byte address of a register of the engine at `base`: its offset in the map from there (R25). -/
def busAddress (base : Nat) (a : RegIndex) : Nat := base + 4 * a.toNat

/-- Why a byte-addressed access does not become a bus transaction of an engine. -/
inductive BridgeReject where
  /-- The address is outside the engine's four words: the rest of the map is the platform's (R32). -/
  | notThisEngine
  /-- The access is not of one whole word; the bridge must refuse it (R30). -/
  | notOneWord
  /-- The address is not a word's; the bridge must refuse it (R30). -/
  | misaligned
  deriving DecidableEq, Repr

/-- The register of the engine at `base` that a byte-addressed access of `size` bytes at `addr` selects,
or why it selects none. It stands before the engine's interface, which carries word indices only (R30).
Which fault is named first where there are several is the model's (log entry 9). -/
def bridgeSelect (base addr size : Nat) : Except BridgeReject RegIndex :=
  if addr < base ∨ base + 16 ≤ addr then .error .notThisEngine
  else if size ≠ 4 then .error .notOneWord
  else if addr % 4 ≠ 0 then .error .misaligned
  else .ok (BitVec.ofNat 2 ((addr - base) / 4))

end Sys2Proof.Machine
end

