-- ==== Sys2Proof/Machine/Ops.lean ====
section
/-! DEFINITION. The operations the instructions share: the adder (41_accumulate.md R59), the code of the
running sum (R63), raising an error (60_exceptions.md R77), a bus write and a bus read under the reset
input (20_memory.md R26, R27; 70_reset_and_hazards.md R90), and taking one bus cycle. -/

namespace Sys2Proof.Machine

/-! ### Arithmetic -/

/-- `ocadd16`: 16-bit one's-complement addition. The 17-bit sum's carry is added back into its low 16
bits (R59). -/
def ocadd16 (a x : Half) : Half :=
  let s : BitVec 17 := a.setWidth 17 + x.setWidth 17
  s.extractLsb' 0 16 + (s.extractLsb' 16 1).setWidth 16

/-- `~16 ACC`: the code of the bytes pushed so far (R9, R63). -/
def Regs.runningCode (r : Regs) : Half := ~~~r.acc

/-- Adds a contribution to ACC (R59). -/
def Regs.accumulate (x : Half) (r : Regs) : Regs := { r with acc := ocadd16 r.acc x }

/-- Loads RESULT with the running code (R17, R65, R66). -/
def Regs.latchCode (r : Regs) : Regs := { r with result := r.runningCode }

/-! ### Errors: the engine's only exception (R76, R77, R83, R84) -/

/-- `raise Err(cause)`: the first cause since the last CLR or reset is kept (R77). This is the whole of
"taking an exception" on this engine: nothing is saved, no mode changes, nothing is vectored (R83). The
way back is CLR or reset, there is no return instruction (R84). -/
def Regs.raiseErr (cause : BitVec 2) (r : Regs) : Regs :=
  if r.err then r else { r with err := true, ecause := cause }

/-! ### The bus under the reset input (R90) -/

/-- The registers as the bus sees them: while reset is asserted, the reset values (R90). -/
def State.view (s : State) : Regs := if s.resetIn then Regs.reset else s.regs

/-- The effect `f` of a bus write on the registers: none while reset is asserted (R26, R90). -/
def State.busWrite (f : Regs → Regs) (s : State) : State :=
  if s.resetIn then s else { s with regs := f s.regs }

/-- The word a bus read returns (R27). -/
def Regs.readWord (r : Regs) : BusReg → Word
  | .cmd => 0x00000000#32
  | .status => r.statusWord
  | .acc => r.acc.setWidth 32
  | .result => r.result.setWidth 32

/-- A bus read: the word goes to the host, no register changes (R27). -/
def State.busRead (a : BusReg) (s : State) : State := { s with rdata := some (s.view.readWord a) }

/-! ### Taking a bus cycle -/

/-- Samples the reset input. While it is asserted the registers are at their reset values, and when it is
deasserted they still are (R89, R90). -/
def State.sampleReset (asserted : Bool) (s : State) : State :=
  { s with resetIn := asserted, regs := if asserted then Regs.reset else s.view }

/-- The state in which the transaction of the next bus cycle `c` runs: the cycle is taken from the
queue, whose rest is `rest`, and its reset level is sampled before the transaction (R82). -/
def State.takeCycle (c : BusCycle) (rest : List BusCycle) (s : State) : State :=
  State.sampleReset c.reset { s with queue := rest }

/-- ECAUSE holds the reserved code, which no step produces (R78; 93_implementation_defined.md). -/
def State.seesReservedCause (s : State) : Bool := s.view.ecause == causeReserved

/-- The bus cycle in which the host issues an instruction, reset deasserted. -/
def cycleOf (i : Instr) : BusCycle := { reset := false, txn := some (i.txn) }

/-- A bus cycle after those still to come: the host issues it next (R33). -/
def State.issueLast (c : BusCycle) (s : State) : State := { s with queue := s.queue ++ [c] }

/-- Puts a transaction, with reset deasserted, where the next step takes it from. -/
def State.issueNext (t : Txn) (s : State) : State :=
  { s with queue := { reset := false, txn := some t } :: s.queue }

end Sys2Proof.Machine
end

