-- ==== Sys2Proof/Machine/Accumulate.lean ====
section
/-! DEFINITION. The accumulate commands PUSHB and PUSHW (41_accumulate.md R60, R61). -/

namespace Sys2Proof.Machine

/-- PUSHB's effect: the byte's contribution joins ACC, PHASE toggles, the flags go stale (R60). -/
def pushbEffect (b : Byte) (r : Regs) : Regs :=
  let r' := (r.accumulate (byteContribution r.phase b)).markStale
  { r' with phase := !r.phase }

/-- PUSHW's effect: both bytes' contribution joins ACC, PHASE stays, the flags go stale (R61). -/
def pushwEffect (w : Half) (r : Regs) : Regs :=
  (r.accumulate (wordContribution r.phase w)).markStale

/-- PUSHB (R60). -/
def execPushb (b : Byte) (s : State) : Host.Outcome State Fault Refusal :=
  .next (s.busWrite (pushbEffect b))

/-- PUSHW (R61). -/
def execPushw (w : Half) (s : State) : Host.Outcome State Fault Refusal :=
  .next (s.busWrite (pushwEffect w))

end Sys2Proof.Machine
end

