-- ==== Sys2Proof/Machine/Control.lean ====
section
/-! DEFINITION. The control commands NOP, CLR and ILLEGAL (43_control.md R69-R71). -/

namespace Sys2Proof.Machine

/-- NOP: no state changes (R69). -/
def execNop (s : State) : Host.Outcome State Fault Refusal := .next s

/-- CLR's effect: every register at its reset value (R24, R70). -/
def clrEffect (_ : Regs) : Regs := Regs.reset

/-- CLR (R70). -/
def execClr (s : State) : Host.Outcome State Fault Refusal := .next (s.busWrite clrEffect)

/-- ILLEGAL's effect: Err(ILLEGAL_OP); `op` is recorded nowhere (R71). -/
def illegalEffect (_op : BitVec 4) (r : Regs) : Regs := r.raiseErr causeIllegalOp

/-- ILLEGAL, OP 0x6-0x7 (R71). -/
def execIllegalLow (op : BitVec 4) (s : State) : Host.Outcome State Fault Refusal :=
  .next (s.busWrite (illegalEffect op))

/-- ILLEGAL, OP 0x8-0xF (R71). -/
def execIllegalHigh (op : BitVec 4) (s : State) : Host.Outcome State Fault Refusal :=
  .next (s.busWrite (illegalEffect op))

end Sys2Proof.Machine
end

