-- ==== Sys2Proof/Machine/Result.lean ====
section
/-! DEFINITION. The result commands FINAL and VERIFY (42_result.md R65, R66). -/

namespace Sys2Proof.Machine

/-- FINAL's effect: RESULT latches `~16 ACC`, DONE is set, the verdict is dropped (R65). -/
def finalEffect (r : Regs) : Regs := r.latchCode.markDone

/-- VERIFY's effect: RESULT latches `~16 ACC` and MATCH says whether it equals `c` (R66). -/
def verifyEffect (c : Half) (r : Regs) : Regs := r.latchCode.markVerdict (r.runningCode == c)

/-- FINAL (R65). -/
def execFinal (s : State) : Host.Outcome State Fault Refusal := .next (s.busWrite finalEffect)

/-- VERIFY (R66). -/
def execVerify (c : Half) (s : State) : Host.Outcome State Fault Refusal :=
  .next (s.busWrite (verifyEffect c))

end Sys2Proof.Machine
end

