-- ==== Sys2Proof/Machine/Bus.lean ====
section
/-! DEFINITION. The bus transactions (20_memory.md R25-R27, 43_control.md R72-R75): reads of the four
registers, a write to CMD, which executes the command its data decodes to, and writes to the three
read-only registers, which are errors. -/

namespace Sys2Proof.Machine

/-- RD CMD returns zero (R75). -/
def execRdCmd (s : State) : Host.Outcome State Fault Refusal := .next (s.busRead .cmd)

/-- RD STATUS returns the flags (R73). -/
def execRdStatus (s : State) : Host.Outcome State Fault Refusal := .next (s.busRead .status)

/-- RD ACC returns `zext_32(ACC)` (R74). -/
def execRdAcc (s : State) : Host.Outcome State Fault Refusal := .next (s.busRead .acc)

/-- RD RESULT returns `zext_32(RESULT)` (R74). -/
def execRdResult (s : State) : Host.Outcome State Fault Refusal := .next (s.busRead .result)

/-- `execute` of a decoded command (R26, R48). -/
def execCommand (c : Command) (s : State) : Host.Outcome State Fault Refusal :=
  match c with
  | .nop => execNop s
  | .clr => execClr s
  | .pushb b => execPushb b s
  | .pushw w => execPushw w s
  | .final => execFinal s
  | .verify code => execVerify code s
  | .illegalLow op => execIllegalLow op s
  | .illegalHigh op => execIllegalHigh op s

/-- WR CMD: `execute(decode(d))` (R26). -/
def execWrCmd (d : Word) (s : State) : Host.Outcome State Fault Refusal :=
  execCommand (decodeCommand d) s

/-- The effect of a write to a read-only register: Err(RO_WRITE); the data is discarded (R72). -/
def roWriteEffect (_d : Word) (r : Regs) : Regs := r.raiseErr causeRoWrite

/-- WR STATUS (R72). -/
def execWrStatus (d : Word) (s : State) : Host.Outcome State Fault Refusal :=
  .next (s.busWrite (roWriteEffect d))

/-- WR ACC (R72). -/
def execWrAcc (d : Word) (s : State) : Host.Outcome State Fault Refusal :=
  .next (s.busWrite (roWriteEffect d))

/-- WR RESULT (R72). -/
def execWrResult (d : Word) (s : State) : Host.Outcome State Fault Refusal :=
  .next (s.busWrite (roWriteEffect d))

end Sys2Proof.Machine
end

