-- ==== Sys2Proof/Machine/Dispatch.lean ====
section
/-! DEFINITION. The dispatch: one arm per instruction. -/

namespace Sys2Proof.Machine

def exec (i : Instr) (s : State) : Host.Outcome State Fault Refusal :=
  match i with
  -- control commands (43_control.md)
  | .nop => Sys2Proof.Machine.execNop s
  | .clr => Sys2Proof.Machine.execClr s
  -- accumulate commands (41_accumulate.md)
  | .pushb b => Sys2Proof.Machine.execPushb b s
  | .pushw w => Sys2Proof.Machine.execPushw w s
  -- result commands (42_result.md)
  | .final => Sys2Proof.Machine.execFinal s
  | .verify c => Sys2Proof.Machine.execVerify c s
  -- illegal commands (43_control.md)
  | .illegalLow op => Sys2Proof.Machine.execIllegalLow op s
  | .illegalHigh op => Sys2Proof.Machine.execIllegalHigh op s
  -- bus transactions (20_memory.md, 43_control.md)
  | .rdCmd => Sys2Proof.Machine.execRdCmd s
  | .rdStatus => Sys2Proof.Machine.execRdStatus s
  | .rdAcc => Sys2Proof.Machine.execRdAcc s
  | .rdResult => Sys2Proof.Machine.execRdResult s
  | .wrCmd d => Sys2Proof.Machine.execWrCmd d s
  | .wrStatus d => Sys2Proof.Machine.execWrStatus d s
  | .wrAcc d => Sys2Proof.Machine.execWrAcc d s
  | .wrResult d => Sys2Proof.Machine.execWrResult d s

end Sys2Proof.Machine
end

