-- ==== Sys2Proof/Machine/Step.lean ====
section
/-! DEFINITION. One step: the engine takes the next bus cycle (00_scope.md R11). With no bus cycle to
take nothing happens: the state changes only at bus writes and at reset (70_reset_and_hazards.md R97). -/

namespace Sys2Proof.Machine

/-- One step of the machine. -/
def step (s : State) : Host.Outcome State Fault Refusal :=
  if s.seesReservedCause then .fault .ecauseReserved
  else
    match s.queue with
    | [] => .next s
    | c :: rest =>
      match c.txn with
      | none => .next (s.takeCycle c rest)
      | some t => exec (decodeTxn t) (s.takeCycle c rest)

/-- `s` with the instruction of a table word put where `step` takes its next instruction from: as the
next bus transaction, with reset deasserted. A word that is no instruction changes nothing. -/
def State.withFetchWord (s : State) (nbits w : Nat) : State :=
  match tableTxn nbits w with
  | some t => s.issueNext t
  | none => s

end Sys2Proof.Machine
end

