-- ==== Sys2Proof/Machine/Assembler.lean ====
section
/-! DEFINITION. The assembler of 30_encoding.md: the statements of R46 with the bus transaction each one
is, the pseudo-instructions of R47 with their expansions, and the text form of a line. It stands before
the engine: what it yields is the host's list of transactions. Log entry 4 names what of the text form the
spec leaves open. -/

namespace Sys2Proof.Machine

/-- The registers a `WR` statement may name: STATUS, ACC and RESULT (R46). -/
inductive WriteTarget where
  | status
  | acc
  | result
  deriving DecidableEq, Repr

/-- A statement of R46, its immediate as the number written. -/
inductive Stmt where
  | nop
  | clr
  | pushb (imm8 : Nat)
  | pushw (imm16 : Nat)
  | final
  | verify (imm16 : Nat)
  | word (imm32 : Nat)
  | rd (r : BusReg)
  | wr (r : WriteTarget) (imm32 : Nat)
  deriving DecidableEq, Repr

/-- A line: a statement, or a pseudo-instruction of R47. -/
inductive Line where
  | stmt (s : Stmt)
  | pushbytes (bs : List Nat)
  | csum (bs : List Nat)
  | check (imm16 : Nat) (bs : List Nat)
  deriving DecidableEq, Repr

/-- Why a line is not assembled. -/
inductive AsmError where
  /-- An immediate outside its width (R46). -/
  | immediateOutOfRange
  /-- The text is no statement of R46 and no pseudo-instruction of R47. -/
  | notAStatement
  deriving DecidableEq, Repr

/-- The register of a `WR` statement. -/
def WriteTarget.reg : WriteTarget → BusReg
  | .status => .status
  | .acc => .acc
  | .result => .result

/-- The transaction of a statement (R46). Every RSVD and ignored bit is 0 but in `.word`. -/
def assemble : Stmt → Except AsmError Txn
  | .nop => .ok (.write 0#2 (encodeCommand .nop))
  | .clr => .ok (.write 0#2 (encodeCommand .clr))
  | .pushb n =>
    if n < 2 ^ 8 then .ok (.write 0#2 (encodeCommand (.pushb (BitVec.ofNat 8 n))))
    else .error .immediateOutOfRange
  | .pushw n =>
    if n < 2 ^ 16 then .ok (.write 0#2 (encodeCommand (.pushw (BitVec.ofNat 16 n))))
    else .error .immediateOutOfRange
  | .final => .ok (.write 0#2 (encodeCommand .final))
  | .verify n =>
    if n < 2 ^ 16 then .ok (.write 0#2 (encodeCommand (.verify (BitVec.ofNat 16 n))))
    else .error .immediateOutOfRange
  | .word n =>
    if n < 2 ^ 32 then .ok (.write 0#2 (BitVec.ofNat 32 n)) else .error .immediateOutOfRange
  | .rd r => .ok (.read r.index)
  | .wr r n =>
    if n < 2 ^ 32 then .ok (.write r.reg.index (BitVec.ofNat 32 n))
    else .error .immediateOutOfRange

/-- `PUSHBYTES b0, …`: a PUSHW for every two bytes, then a PUSHB if one is left (R47). -/
def pushBytes : List Byte → List Instr
  | [] => []
  | [b] => [.pushb b]
  | b1 :: b0 :: rest => .pushw (b1 ++ b0) :: pushBytes rest

/-- `CSUM b0, …` (R47). -/
def csum (p : List Byte) : List Instr := .clr :: pushBytes p ++ [.final]

/-- `CHECK imm16, b0, …` (R47). -/
def check (c : Half) (p : List Byte) : List Instr := .clr :: pushBytes p ++ [.verify c]

/-- The bytes of a pseudo-instruction's immediates; each is an `imm8`. -/
def immediateBytes : List Nat → Except AsmError (List Byte)
  | [] => .ok []
  | n :: ns =>
    if n < 2 ^ 8 then
      match immediateBytes ns with
      | .ok bs => .ok (BitVec.ofNat 8 n :: bs)
      | .error e => .error e
    else .error .immediateOutOfRange

/-- The transactions of a line (R46, R47). -/
def assembleLine : Line → Except AsmError (List Txn)
  | .stmt s =>
    match assemble s with
    | .ok t => .ok [t]
    | .error e => .error e
  | .pushbytes ns =>
    match immediateBytes ns with
    | .ok p => .ok ((pushBytes p).map Instr.txn)
    | .error e => .error e
  | .csum ns =>
    match immediateBytes ns with
    | .ok p => .ok ((csum p).map Instr.txn)
    | .error e => .error e
  | .check n ns =>
    if n < 2 ^ 16 then
      match immediateBytes ns with
      | .ok p => .ok ((check (BitVec.ofNat 16 n) p).map Instr.txn)
      | .error e => .error e
    else .error .immediateOutOfRange

/-! ### The text form of a line (R46) -/

/-- A token of a line: a word of non-blank characters, or a comma. -/
inductive Token where
  | atom (cs : List Char)
  | comma
  deriving DecidableEq, Repr

/-- Puts the characters gathered so far, last first, before the tokens. -/
def flushAtom (seen : List Char) (ts : List Token) : List Token :=
  match seen with
  | [] => ts
  | _ :: _ => .atom seen.reverse :: ts

/-- The tokens of a line up to its comment, which `;` starts (R46). `seen` is the atom being read, its
last character first. -/
def tokens (seen : List Char) : List Char → List Token
  | [] => flushAtom seen []
  | ch :: rest =>
    if ch = ';' then flushAtom seen []
    else if ch = ',' then flushAtom seen (.comma :: tokens [] rest)
    else if ch = ' ' ∨ ch = '\t' then flushAtom seen (tokens [] rest)
    else tokens (ch :: seen) rest

/-- The value of a digit, hexadecimal digits in either case. -/
def digitValue (ch : Char) : Option Nat :=
  if '0' ≤ ch ∧ ch ≤ '9' then some (ch.toNat - '0'.toNat)
  else if 'a' ≤ ch ∧ ch ≤ 'f' then some (ch.toNat - 'a'.toNat + 10)
  else if 'A' ≤ ch ∧ ch ≤ 'F' then some (ch.toNat - 'A'.toNat + 10)
  else none

/-- Reads digits of a base on to the number read so far. -/
def digitsValue (base : Nat) (sofar : Nat) : List Char → Option Nat
  | [] => some sofar
  | ch :: rest =>
    match digitValue ch with
    | some v => if v < base then digitsValue base (sofar * base + v) rest else none
    | none => none

/-- An immediate: `0x` and hexadecimal digits, or decimal digits (R46). -/
def immediate : List Char → Option Nat
  | [] => none
  | '0' :: 'x' :: [] => none
  | '0' :: 'x' :: digits => digitsValue 16 0 digits
  | digits => digitsValue 10 0 digits

/-- Immediates separated by commas, at least one. -/
def immediates : List Token → Option (List Nat)
  | [.atom cs] => (immediate cs).map fun n => [n]
  | .atom cs :: .comma :: rest =>
    match immediate cs, immediates rest with
    | some n, some ns => some (n :: ns)
    | _, _ => none
  | _ => none

/-- The bytes of a pseudo-instruction: none, or immediates separated by commas (R47, "With n = 0"). -/
def byteImmediates : List Token → Option (List Nat)
  | [] => some []
  | ts => immediates ts

/-- A register name of `RD` (R46). -/
def readTarget (cs : List Char) : Option BusReg :=
  if cs = ['C', 'M', 'D'] then some .cmd
  else if cs = ['S', 'T', 'A', 'T', 'U', 'S'] then some .status
  else if cs = ['A', 'C', 'C'] then some .acc
  else if cs = ['R', 'E', 'S', 'U', 'L', 'T'] then some .result
  else none

/-- A register name of `WR` (R46). -/
def writeTarget (cs : List Char) : Option WriteTarget :=
  if cs = ['S', 'T', 'A', 'T', 'U', 'S'] then some .status
  else if cs = ['A', 'C', 'C'] then some .acc
  else if cs = ['R', 'E', 'S', 'U', 'L', 'T'] then some .result
  else none

/-- One immediate and nothing after it. -/
def oneImmediate (make : Nat → Stmt) : List Token → Option Line
  | [.atom cs] => (immediate cs).map fun n => .stmt (make n)
  | _ => none

/-- A statement without operands. -/
def noOperand (s : Stmt) : List Token → Option Line
  | [] => some (.stmt s)
  | _ => none

/-- The line a mnemonic and the tokens after it stand for. -/
def lineOf (m : List Char) (ts : List Token) : Option Line :=
  if m = ['N', 'O', 'P'] then noOperand .nop ts
  else if m = ['C', 'L', 'R'] then noOperand .clr ts
  else if m = ['P', 'U', 'S', 'H', 'B'] then oneImmediate .pushb ts
  else if m = ['P', 'U', 'S', 'H', 'W'] then oneImmediate .pushw ts
  else if m = ['F', 'I', 'N', 'A', 'L'] then noOperand .final ts
  else if m = ['V', 'E', 'R', 'I', 'F', 'Y'] then oneImmediate .verify ts
  else if m = ['.', 'w', 'o', 'r', 'd'] then oneImmediate .word ts
  else if m = ['R', 'D'] then
    match ts with
    | [.atom r] => (readTarget r).map fun a => .stmt (.rd a)
    | _ => none
  else if m = ['W', 'R'] then
    match ts with
    | [.atom r, .comma, .atom n] =>
      match writeTarget r, immediate n with
      | some a, some v => some (.stmt (.wr a v))
      | _, _ => none
    | _ => none
  else if m = ['P', 'U', 'S', 'H', 'B', 'Y', 'T', 'E', 'S'] then (byteImmediates ts).map .pushbytes
  else if m = ['C', 'S', 'U', 'M'] then (byteImmediates ts).map .csum
  else if m = ['C', 'H', 'E', 'C', 'K'] then
    match ts with
    | .atom c :: [] => (immediate c).map fun n => .check n []
    | .atom c :: .comma :: rest =>
      match immediate c, immediates rest with
      | some n, some ns => some (.check n ns)
      | _, _ => none
    | _ => none
  else none

/-- The transactions of a line of text; a blank or comment line has none (R46). -/
def assembleText (cs : List Char) : Except AsmError (List Txn) :=
  match tokens [] cs with
  | [] => .ok []
  | .atom m :: ts =>
    match lineOf m ts with
    | some l => assembleLine l
    | none => .error .notAStatement
  | .comma :: _ => .error .notAStatement

end Sys2Proof.Machine
end

