-- ==== Sys2Proof/Machine/Checksum.lean ====
section
/-! DEFINITION. The reference functions of 40_checksum_function.md (R49-R54): what the source defines,
over a whole payload. No command calls them: the commands are held to them. A payload is a list of
bytes, earliest first. Also the injector's corruption, which R58 speaks of. -/

namespace Sys2Proof.Machine

/-- The payload byte `p[i]`; only asked for `i < n`. -/
def payloadByte (p : List Byte) (i : Nat) : Byte := p.getD i 0#8

/-- `m = ceil(n / 2)`, the number of words (R49). -/
def wordCount (p : List Byte) : Nat := (p.length + 1) / 2

/-- `word(p, k)`: big-endian (R50), the last byte of an odd payload padded below with one zero byte
(R51). -/
def wordAt (p : List Byte) (k : Nat) : Half :=
  if 2 * k + 1 < p.length then payloadByte p (2 * k) ++ payloadByte p (2 * k + 1)
  else payloadByte p (2 * k) ++ 0#8

/-- `S`: the exact sum of the words, unbounded (R49, R52). -/
def wordSum (p : List Byte) : Nat := ((List.range (wordCount p)).map fun k => (wordAt p k).toNat).sum

/-- At most `fuel` passes of `fold`'s loop (R52). -/
def foldPasses : Nat → Nat → Nat
  | 0, s => s
  | fuel + 1, s => if s ≥ 0x10000 then foldPasses fuel (s % 0x10000 + s / 0x10000) else s

/-- `fold`: the end-around carry, repeated until the value fits in 16 bits (R52). Each pass strictly
decreases `s`, so `s` passes are enough. -/
def fold (s : Nat) : Nat := foldPasses s s

/-- `compute`: the complement of the folded sum (R49, R53). -/
def compute (p : List Byte) : Half := ~~~(BitVec.ofNat 16 (fold (wordSum p)))

/-- `verify`: equality of the computed and the given code, nothing else (R54). -/
def verify (p : List Byte) (c : Half) : Bool := compute p == c

/-- The words of a payload one after the other, read off the list: R50 and R51 without indices. -/
def wordsOf : List Byte → List Half
  | [] => []
  | [b] => [b ++ 0#8]
  | b1 :: b0 :: rest => (b1 ++ b0) :: wordsOf rest

/-- The two bytes a pushed word stands for, in payload order (R28). -/
def bytesOfHalf (w : Half) : List Byte := [w.extractLsb' 8 8, w.extractLsb' 0 8]

/-- `p` with the byte at `i` replaced by `(p[i] + 1) mod 256` (R58). -/
def incrementAt (p : List Byte) (i : Nat) : List Byte := p.set i (payloadByte p i + 1#8)

/-- `p` with bit `j` of the byte at `i` flipped (R58 (c)). -/
def flipBitAt (p : List Byte) (i j : Nat) : List Byte :=
  p.set i (payloadByte p i ^^^ (1#8 <<< j))

end Sys2Proof.Machine
end

