-- ==== Sys2Proof/Machine/System.lean ====
section
/-! DEFINITION. A system of several engines (00_scope.md R8, 60_exceptions.md R86): the product of one
engine per instance. The instances share no state, start at their own reset and send no signals to each
other, so a step of the system is a step of one of them. Software tells them apart only by their base
addresses: `route` finds the engine and the register of a byte-addressed access. Engine `k` of the list
is the one at `Config.csumBase k`; the number is the model's own and no software sees it (log entry 9). -/

namespace Sys2Proof.Machine

/-- The states of the engines of a system, one for each instance. -/
structure System where
  engines : List State
  deriving DecidableEq, Repr

/-- A system has `INSTANCES` engines. -/
def System.wf (y : System) : Bool := y.engines.length == Config.engineCount

/-- Every engine at its own reset. -/
def System.reset : System := { engines := List.replicate Config.engineCount State.reset }

/-- A step of engine `k`: `none` if the system has no such engine. -/
def System.stepEngine (k : Nat) (y : System) : Option (Host.Outcome System Fault Refusal) :=
  match y.engines[k]? with
  | none => none
  | some s =>
    match step s with
    | .next s' => some (.next { engines := y.engines.set k s' })
    | .fault r => some (.fault r)
    | .refused r => some (.refused r)

/-! ### By address (R8, R30, R86) -/

/-- The engine among the first `n` whose words `addr` is one of, and the register the access selects in
it; or why there is none. -/
def routeAmong : Nat → Nat → Nat → Except BridgeReject (Nat × RegIndex)
  | 0, _, _ => .error .notThisEngine
  | n + 1, addr, size =>
    match bridgeSelect (Config.csumBase n) addr size with
    | .ok a => .ok (n, a)
    | .error .notThisEngine => routeAmong n addr size
    | .error .notOneWord => .error .notOneWord
    | .error .misaligned => .error .misaligned

/-- The engine of the system and the register that a byte-addressed access selects (R86). -/
def route (addr size : Nat) : Except BridgeReject (Nat × RegIndex) :=
  routeAmong Config.engineCount addr size

/-- A byte-addressed access of a system's software: a read, or a write of a word. -/
structure Access where
  addr : Nat
  size : Nat
  data : Option Word
  deriving DecidableEq, Repr

/-- The bus transaction of an access to the register at `a`. -/
def Access.txn (m : Access) (a : RegIndex) : Txn :=
  match m.data with
  | none => .read a
  | some d => .write a d

/-- Gives a bus cycle to engine `k` alone, after those it has still to take. -/
def System.issueTo (k : Nat) (c : BusCycle) (y : System) : System :=
  { engines := y.engines.modify k (State.issueLast c) }

/-- An access goes to the engine its address belongs to, as a bus transaction of that engine, or is
refused by the bridge (R30, R86). -/
def System.access (m : Access) (y : System) : Except BridgeReject System :=
  match route m.addr m.size with
  | .ok (k, a) => .ok (y.issueTo k { reset := false, txn := some (m.txn a) })
  | .error e => .error e

/-- Engine `k`'s own reset input is asserted for a cycle; no other engine sees it (R86). -/
def System.resetEngine (k : Nat) (y : System) : System := y.issueTo k { reset := true, txn := none }

end Sys2Proof.Machine
end

