-- ==== Sys2Proof/Safety.lean ====
section
/-! DEFINITION. The terms claims use: the invariant of the registers, the payload a run has pushed and
what the registers hold of it (41_accumulate.md R62, 42_result.md R67, R68), the host's duties
(20_memory.md R34), a computation and the observation that ends it (R38), several masters (R37), and runs
over a list of instructions. -/

namespace Sys2Proof

/-! ### Kinds of instructions -/

/-- PUSHB or PUSHW: a command that joins ACC. -/
def Command.isPush : Command → Bool
  | .pushb _ | .pushw _ => true
  | .nop | .clr | .final | .verify _ | .illegalLow _ | .illegalHigh _ => false

/-- ILLEGAL: a command that raises Err(ILLEGAL_OP) (R71). -/
def Command.isIllegal : Command → Bool
  | .illegalLow _ | .illegalHigh _ => true
  | .nop | .clr | .pushb _ | .pushw _ | .final | .verify _ => false

/-- FINAL or VERIFY: a command that loads RESULT (R17). -/
def Command.isResult : Command → Bool
  | .final | .verify _ => true
  | .nop | .clr | .pushb _ | .pushw _ | .illegalLow _ | .illegalHigh _ => false

/-- Whether the instruction carries to CMD a command with the property `f`. -/
def Instr.carries (f : Command → Bool) (i : Instr) : Bool :=
  match i.command? with
  | some c => f c
  | none => false

/-- A write to STATUS, ACC or RESULT (R72). -/
def Instr.writesReadOnly : Instr → Bool
  | .wrStatus _ | .wrAcc _ | .wrResult _ => true
  | .nop | .clr | .pushb _ | .pushw _ | .final | .verify _ => false
  | .illegalLow _ | .illegalHigh _ => false
  | .rdCmd | .rdStatus | .rdAcc | .rdResult | .wrCmd _ => false

/-- A bus read (R27). -/
def Instr.isRead : Instr → Bool
  | .rdCmd | .rdStatus | .rdAcc | .rdResult => true
  | .nop | .clr | .pushb _ | .pushw _ | .final | .verify _ => false
  | .illegalLow _ | .illegalHigh _ => false
  | .wrCmd _ | .wrStatus _ | .wrAcc _ | .wrResult _ => false

end Sys2Proof

namespace Sys2Proof.Machine

/-! ### The invariant -/

/-- What holds of the registers in every state a run reaches: ERR and ECAUSE agree and the reserved
code does not occur (R22, R78), a verdict only while it is current (R21), a current verdict only with
a current RESULT (R66), and a current RESULT is the code of ACC (R65, R66). -/
structure Regs.Ok (r : Regs) : Prop where
  /-- "When ERR = 0, ECAUSE = 0b00" (R22). -/
  noCause : r.err = false → r.ecause = 0b00#2
  /-- With ERR = 1 the cause is one of the two of R78. -/
  cause : r.err = true → r.ecause = 0b01#2 ∨ r.ecause = 0b10#2
  /-- "When MVALID = 0, MATCH is 0" (R21). -/
  verdict : r.mvalid = false → r.matched = false
  mvalidDone : r.mvalid = true → r.done = true
  doneResult : r.done = true → r.result = ~~~r.acc

/-- The invariant of the machine's state: the registers are in order, and while reset is asserted they
are at their reset values (R90). -/
structure State.Ok (s : State) : Prop where
  regs : s.regs.Ok
  inReset : s.resetIn = true → s.regs = Regs.reset

/-! ### The payload pushed so far -/

/-- What a run has done since the last CLR or reset, as the host knows it: no state of the engine. -/
structure History where
  /-- `P`: the bytes pushed, in push order (R62). -/
  pushed : List Byte
  /-- The operand of the most recent VERIFY (R68). -/
  expected : Option Half
  deriving DecidableEq, Repr

/-- Right after CLR or reset. -/
def History.start : History := { pushed := [], expected := none }

/-- A command's part in the history. A PUSHW counts as its two bytes `w[15:8]` then `w[7:0]` (R62). -/
def History.command (c : Command) (h : History) : History :=
  match c with
  | .clr => History.start
  | .pushb b => { h with pushed := h.pushed ++ [b] }
  | .pushw w => { h with pushed := h.pushed ++ bytesOfHalf w }
  | .verify code => { h with expected := some code }
  | .nop | .final | .illegalLow _ | .illegalHigh _ => h

/-- An instruction's part in the history. -/
def History.instr (i : Instr) (h : History) : History :=
  match i.command? with
  | some c => h.command c
  | none => h

/-- A bus cycle's part: reset starts a new payload, and takes priority over a write (R82, R98). -/
def History.cycle (c : BusCycle) (h : History) : History :=
  if c.reset then History.start
  else
    match c.txn with
    | some t => h.instr (decodeTxn t)
    | none => h

/-- The history after a list of bus cycles. -/
def History.cycles (cs : List BusCycle) (h : History) : History := cs.foldl (fun h c => h.cycle c) h

/-- The registers hold what the spec says of a history. -/
structure Holds (h : History) (r : Regs) : Prop where
  /-- `ACC = fold(S(P))` (R62). -/
  acc : r.acc.toNat = fold (wordSum h.pushed)
  /-- `PHASE = n mod 2` (R62). -/
  phase : r.phase = decide (h.pushed.length % 2 = 1)
  /-- If DONE = 1 then `RESULT = compute(P)` (R67). -/
  result : r.done = true → r.result = compute h.pushed
  /-- If MVALID = 1 then `MATCH = verify(P, c)` of the most recent VERIFY (R68). -/
  verdict : r.mvalid = true → ∃ c, h.expected = some c ∧ r.matched = verify h.pushed c

/-! ### The host (R34, R38) -/

/-- The host's duty at a read: RESULT only while DONE = 1 (R34). Every other transaction is free to issue at any
time; that MATCH counts only while MVALID = 1 is `observation`'s condition. -/
def readDuty (i : Instr) (r : Regs) : Bool :=
  match i with
  | .rdResult => r.done
  | .nop | .clr | .pushb _ | .pushw _ | .final | .verify _ => true
  | .illegalLow _ | .illegalHigh _ => true
  | .rdCmd | .rdStatus | .rdAcc => true
  | .wrCmd _ | .wrStatus _ | .wrAcc _ | .wrResult _ => true

/-- The most bytes of one segment's payload: the host's duty, which the engine does not check (R34). -/
def segmentLimit : Nat := 512

/-- What a computation is observed to be (R38): the code, or the verdict MATCH. -/
inductive Observation where
  | code (c : Half)
  | verdict (m : Bool)
  deriving DecidableEq, Repr

/-- The observation a transaction gives if it comes in a computation in progress: a read of RESULT while
DONE = 1, or of STATUS while MVALID = 1 (R38). It is taken from the word `w` the read returns: RESULT is
its low half, MATCH its bit 3. -/
def observation (i : Instr) (r : Regs) (w : Word) : Option Observation :=
  match i with
  | .rdResult => if r.done then some (.code (w.extractLsb' 0 16)) else none
  | .rdStatus => if r.mvalid then some (.verdict (w.getLsbD 3)) else none
  | .nop | .clr | .pushb _ | .pushw _ | .final | .verify _ => none
  | .illegalLow _ | .illegalHigh _ => none
  | .rdCmd | .rdAcc => none
  | .wrCmd _ | .wrStatus _ | .wrAcc _ | .wrResult _ => none

/-! ### A computation (R38) -/

/-- A computation: the sequence of transactions from a CLR (or reset) to the first later read that gives
an observation (R38). `observed` is `none` while no such read has come: a computation that never reads
the result has no observation. -/
structure Computation where
  /-- The computation's transactions, the oldest first: the CLR it starts with, unless it starts at
  reset, and the read it ends with, once it has ended. -/
  txns : List Txn
  observed : Option Observation
  deriving DecidableEq, Repr

/-- The computation that starts at reset. -/
def Computation.start : Computation := { txns := [], observed := none }

/-- What the host has done in a computation, read off its own transactions. -/
def Computation.history (k : Computation) : History :=
  k.txns.foldl (fun h t => h.instr (decodeTxn t)) History.start

/-- A transaction `x` in a computation, with the registers `r` the bus sees before it and the word `w`
returned after it. A CLR starts a new computation; a transaction after the end is in none; any other one
joins, and ends the computation if it is the read R38 names. -/
def Computation.txn (x : Txn) (r : Regs) (w : Option Word) (k : Computation) : Computation :=
  if (decodeTxn x).command? = some .clr then { txns := [x], observed := none }
  else
    match k.observed with
    | some _ => k
    | none => { txns := k.txns ++ [x], observed := w.bind (observation (decodeTxn x) r) }

/-- A bus cycle `c` in a computation, taken in state `s` and leaving state `t`. Reset starts a new one. -/
def Computation.cycle (c : BusCycle) (s t : State) (k : Computation) : Computation :=
  if c.reset then Computation.start
  else
    match c.txn with
    | some x => k.txn x s.view t.rdata
    | none => k

/-- The latest computation after at most `n` steps from `s`, in which `k` was the latest before: the one
that the last CLR or reset started. It stops where no bus cycle is left to take. -/
def Computation.after : Nat → State → Computation → Computation
  | 0, _, k => k
  | n + 1, s, k =>
    match s.queue, step s with
    | c :: _, .next t => Computation.after n t (k.cycle c s t)
    | _, _ => k

/-- The observation of a computation, if it has one, is the reference value of the bytes it pushed: the
code (R67), or the verdict of its latest VERIFY (R68). -/
structure Computation.Correct (k : Computation) : Prop where
  code : ∀ c, k.observed = some (.code c) → c = compute k.history.pushed
  verdict : ∀ m, k.observed = some (.verdict m) →
    ∃ c, k.history.expected = some c ∧ m = verify k.history.pushed c

/-- `zs` is an interleaving of two masters' lists: each keeps its own order (R37). -/
inductive Interleaving {α : Type} : List α → List α → List α → Prop where
  | done : Interleaving [] [] []
  | first {x : α} {xs ys zs : List α} : Interleaving xs ys zs → Interleaving (x :: xs) ys (x :: zs)
  | second {y : α} {xs ys zs : List α} : Interleaving xs ys zs → Interleaving xs (y :: ys) (y :: zs)

/-! ### Runs -/

/-- Executes instructions one after the other, stopping at the first fault or refusal. -/
def execAll : List Instr → State → Host.Outcome State Fault Refusal
  | [], s => .next s
  | i :: is, s =>
    match exec i s with
    | .next s' => execAll is s'
    | .fault r => .fault r
    | .refused r => .refused r

/-- `s` with a list of bus cycles put before those it has still to take. -/
def State.withCycles (cs : List BusCycle) (s : State) : State := { s with queue := cs ++ s.queue }

end Sys2Proof.Machine
end

