-- ==== Sys2Proof/Certificates/Slice0/Obligations.lean ====
section
/-! DEFINITION. The statements about the model, for the provers. A statement of an instruction's result
is an equation `exec i s = .next …` whose right side changes only the fields it names, so it is the
instruction's frame and its completion as well. -/

open Sys2Proof Sys2Proof.Machine

/-! ### Reset -/

/-- R89: the reset values; CLR gives the same state from any state; so does asserting reset. -/
def Obligations.ResetAndClrGiveTheSameState : Prop :=
  State.reset.regs =
      { acc := 0x0000#16, phase := false, result := 0x0000#16, done := false, mvalid := false,
        matched := false, err := false, ecause := 0b00#2 } ∧
    State.reset.resetIn = false ∧
    (∀ s : State, s.resetIn = false → exec .clr s = .next { s with regs := State.reset.regs }) ∧
    (∀ (s : State) (rest : List BusCycle), s.view.ecause ≠ 0b11#2 →
      s.queue = { reset := true, txn := none } :: rest →
      step s = .next { s with regs := State.reset.regs, resetIn := true, queue := rest })

/-- R92: after reset the code of the running sum is that of the empty payload, and the first payload
may be pushed without a CLR. -/
def Obligations.FirstPayloadNeedsNoClr : Prop :=
  ~~~State.reset.regs.acc = compute [] ∧
    ∀ p : List Byte, ∃ t, execAll (pushBytes p ++ [.final]) State.reset = .next t ∧
      t.regs.done = true ∧ t.regs.result = compute p

/-- R90: while reset is asserted a write has no effect and a read returns the reset-state value, which is
0 for every register; when it is deasserted the engine is in the reset state. R90 says of the time after
only that the engine "accepts the next transaction": that the transaction of the very cycle that
deasserts reset is accepted (the last clause) is the model's choice, log entry 5, and the premise on
ECAUSE is log entry 6. -/
def Obligations.ResetInputDominates : Prop :=
  ∀ (s : State) (c : BusCycle) (rest : List BusCycle), s.view.ecause ≠ 0b11#2 →
    s.queue = c :: rest →
    (c.reset = true → ∀ a d, c.txn = some (.write a d) →
      step s = .next { s with regs := Regs.reset, resetIn := true, queue := rest }) ∧
    (c.reset = true → ∀ a, c.txn = some (.read a) →
      step s = .next { s with regs := Regs.reset, resetIn := true, queue := rest, rdata := some 0#32 }) ∧
    (c.reset = false → s.resetIn = true → c.txn = none →
      step s = .next { s with regs := Regs.reset, resetIn := false, queue := rest }) ∧
    (c.reset = false → s.resetIn = true → ∀ t, c.txn = some t →
      step s = exec (decodeTxn t) { s with regs := Regs.reset, resetIn := false, queue := rest })

/-! ### The accumulate commands -/

/-- R60: PUSHB, and the words that are PUSHB. -/
def Obligations.PushbJoinsOneByte : Prop :=
  (∀ (b : Byte) (s : State), s.resetIn = false →
    exec (.pushb b) s = .next { s with regs := { s.regs with
      acc := ocadd16 s.regs.acc (if s.regs.phase = false then b ++ 0x00#8 else 0x00#8 ++ b),
      phase := !s.regs.phase, done := false, mvalid := false, matched := false } }) ∧
  (∀ (d : Word) (s : State), d.extractLsb' 28 4 = 0x2#4 →
    exec (.wrCmd d) s = exec (.pushb (d.extractLsb' 0 8)) s)

/-- R61: PUSHW, byte-swapped at PHASE 1, and the words that are PUSHW. -/
def Obligations.PushwJoinsTwoBytes : Prop :=
  (∀ (w : Half) (s : State), s.resetIn = false →
    exec (.pushw w) s = .next { s with regs := { s.regs with
      acc := ocadd16 s.regs.acc
        (if s.regs.phase = false then w else w.extractLsb' 0 8 ++ w.extractLsb' 8 8),
      done := false, mvalid := false, matched := false } }) ∧
  (∀ (d : Word) (s : State), d.extractLsb' 28 4 = 0x3#4 →
    exec (.wrCmd d) s = exec (.pushw (d.extractLsb' 0 16)) s)

/-- R59: the adder is one exact fold of the sum, it gives 0 only for 0 + 0, and the rule's corner
cases. -/
def Obligations.AdderIsOneExactFold : Prop :=
  (∀ a x : Half, (ocadd16 a x).toNat = (a.toNat + x.toNat) % 0x10000 + (a.toNat + x.toNat) / 0x10000) ∧
  (∀ a x : Half, (ocadd16 a x).toNat = fold (a.toNat + x.toNat)) ∧
  (∀ a x : Half, ocadd16 a x = 0#16 ↔ a = 0#16 ∧ x = 0#16) ∧
  ocadd16 0xFFFF#16 0x0000#16 = 0xFFFF#16 ∧ ocadd16 0xFFFF#16 0xFFFF#16 = 0xFFFF#16 ∧
  ocadd16 0xFFFF#16 0x0001#16 = 0x0001#16 ∧ ocadd16 0x8000#16 0x8000#16 = 0x0001#16

/-- R64: from any state PUSHW leaves the state that pushing its earlier and then its later byte
leaves. -/
def Obligations.PushwIsTwoPushb : Prop :=
  ∀ (w : Half) (s : State), ∃ t u, exec (.pushb (w.extractLsb' 8 8)) s = .next t ∧
    exec (.pushb (w.extractLsb' 0 8)) t = .next u ∧ exec (.pushw w) s = .next u

/-! ### The result commands -/

/-- R65: FINAL, and the words that are FINAL. -/
def Obligations.FinalLatchesTheCode : Prop :=
  (∀ s : State, s.resetIn = false →
    exec .final s = .next { s with regs := { s.regs with
      result := ~~~s.regs.acc, done := true, mvalid := false, matched := false } }) ∧
  (∀ (d : Word) (s : State), d.extractLsb' 28 4 = 0x4#4 → exec (.wrCmd d) s = exec .final s)

/-- R66: VERIFY, and the words that are VERIFY. -/
def Obligations.VerifyComparesTheCode : Prop :=
  (∀ (c : Half) (s : State), s.resetIn = false →
    exec (.verify c) s = .next { s with regs := { s.regs with
      result := ~~~s.regs.acc, done := true, mvalid := true,
      matched := decide (~~~s.regs.acc = c) } }) ∧
  (∀ (d : Word) (s : State), d.extractLsb' 28 4 = 0x5#4 →
    exec (.wrCmd d) s = exec (.verify (d.extractLsb' 0 16)) s)

/-! ### The control commands -/

/-- R69: NOP leaves every state as it is, and the words that are NOP. -/
def Obligations.NopChangesNothing : Prop :=
  (∀ s : State, exec .nop s = .next s) ∧
  (∀ (d : Word) (s : State), d.extractLsb' 28 4 = 0x0#4 → exec (.wrCmd d) s = .next s)

/-- R70: CLR puts every register at its reset value, the words that are CLR, and that no other
instruction clears ERR. -/
def Obligations.ClrStartsANewPayload : Prop :=
  (∀ s : State, s.resetIn = false →
    exec .clr s = .next { s with regs :=
      { acc := 0x0000#16, phase := false, result := 0x0000#16, done := false, mvalid := false,
        matched := false, err := false, ecause := 0b00#2 } }) ∧
  (∀ (d : Word) (s : State), d.extractLsb' 28 4 = 0x1#4 → exec (.wrCmd d) s = exec .clr s) ∧
  (∀ (i : Instr) (s t : State), s.regs.err = true → exec i s = .next t → t.regs.err = false →
    i.command? = some .clr)

/-- R71: ILLEGAL (both rows of the table) raises ILLEGAL_OP if no error is recorded and changes nothing
else, and the words that are ILLEGAL. -/
def Obligations.IllegalOnlyRaisesItsError : Prop :=
  (∀ (op : BitVec 4) (s : State), s.resetIn = false →
    exec (.illegalLow op) s = .next { s with regs :=
      if s.regs.err = true then s.regs else { s.regs with err := true, ecause := 0b01#2 } }) ∧
  (∀ (op : BitVec 4) (s : State), s.resetIn = false →
    exec (.illegalHigh op) s = .next { s with regs :=
      if s.regs.err = true then s.regs else { s.regs with err := true, ecause := 0b01#2 } }) ∧
  (∀ (d : Word) (s : State), d &&& 0xE0000000#32 = 0x60000000#32 →
    exec (.wrCmd d) s = exec (.illegalLow (d.extractLsb' 28 4)) s) ∧
  (∀ (d : Word) (s : State), d &&& 0x80000000#32 = 0x80000000#32 →
    exec (.wrCmd d) s = exec (.illegalHigh (d.extractLsb' 28 4)) s)

/-! ### Register access -/

/-- R72: a write to STATUS, ACC or RESULT raises RO_WRITE if no error is recorded and changes nothing
else. -/
def Obligations.ReadOnlyWriteOnlyRaisesItsError : Prop :=
  ∀ (i : Instr) (d : Word) (s : State), i = .wrStatus d ∨ i = .wrAcc d ∨ i = .wrResult d →
    s.resetIn = false →
    exec i s = .next { s with regs :=
      if s.regs.err = true then s.regs else { s.regs with err := true, ecause := 0b10#2 } }

/-- R73: reading STATUS returns the flags, each in its place (R18), and changes no register. -/
def Obligations.ReadStatusReturnsTheFlags : Prop :=
  ∀ s : State, s.resetIn = false → ∃ w : Word, exec .rdStatus s = .next { s with rdata := some w } ∧
    w = 0#25 ++ s.regs.ecause ++ BitVec.ofBool s.regs.err ++ BitVec.ofBool s.regs.matched
      ++ BitVec.ofBool s.regs.mvalid ++ BitVec.ofBool s.regs.done ++ BitVec.ofBool s.regs.phase ∧
    w.getLsbD 0 = s.regs.phase ∧ w.getLsbD 1 = s.regs.done ∧ w.getLsbD 2 = s.regs.mvalid ∧
    w.getLsbD 3 = s.regs.matched ∧ w.getLsbD 4 = s.regs.err ∧ w.extractLsb' 5 2 = s.regs.ecause ∧
    w.extractLsb' 7 25 = 0#25

/-- R74: reading ACC and RESULT returns the register, bits [31:16] zero, and changes no register. -/
def Obligations.ReadAccAndResult : Prop :=
  (∀ s : State, s.resetIn = false →
    exec .rdAcc s = .next { s with rdata := some (0#16 ++ s.regs.acc) }) ∧
  (∀ s : State, s.resetIn = false →
    exec .rdResult s = .next { s with rdata := some (0#16 ++ s.regs.result) })

/-- R75: reading CMD returns zero and changes no register, in every state. -/
def Obligations.ReadCmdReturnsZero : Prop :=
  ∀ s : State, exec .rdCmd s = .next { s with rdata := some 0x00000000#32 }

/-- R26: a bus write has no effect while reset is asserted, executes the decoded command at index 0, and
is the error RO_WRITE at any other index. -/
def Obligations.BusWriteByIndex : Prop :=
  ∀ (a : RegIndex) (d : Word) (s : State),
    (s.resetIn = true → exec (decodeTxn (.write a d)) s = .next s) ∧
    (s.resetIn = false → a = 0#2 → decodeTxn (.write a d) = .wrCmd d ∧
      ∃ t, exec (.wrCmd d) s = .next t ∧ exec (decodeCommand d).toInstr s = .next t) ∧
    (s.resetIn = false → a ≠ 0#2 →
      exec (decodeTxn (.write a d)) s = .next { s with regs := s.regs.raiseErr 0b10#2 })

/-- R27: a bus read returns the word of its index and changes no register, and the same read returns the
same word again, whichever read comes between. -/
def Obligations.BusReadByIndex : Prop :=
  ∀ (a a' : RegIndex) (s : State), s.resetIn = false → ∃ t u w,
    exec (decodeTxn (.read a)) s = .next t ∧ exec (decodeTxn (.read a')) t = .next u ∧
    exec (decodeTxn (.read a)) u = .next t ∧ t = { s with rdata := some w } ∧
    (a = 0#2 → w = 0x00000000#32) ∧
    (a = 1#2 → w = 0#25 ++ s.regs.ecause ++ BitVec.ofBool s.regs.err ++ BitVec.ofBool s.regs.matched
      ++ BitVec.ofBool s.regs.mvalid ++ BitVec.ofBool s.regs.done ++ BitVec.ofBool s.regs.phase) ∧
    (a = 2#2 → w = s.regs.acc.setWidth 32) ∧
    (a = 3#2 → w = s.regs.result.setWidth 32)

/-- R23: the four words a host can read tell every bit of the registers. -/
def Obligations.EveryRegisterBitIsReadable : Prop :=
  ∀ s s' : State, s.resetIn = false → s'.resetIn = false →
    (∀ a : RegIndex, ∀ t t', exec (decodeTxn (.read a)) s = .next t →
      exec (decodeTxn (.read a)) s' = .next t' → t.rdata = t'.rdata) →
    s.regs = s'.regs

/-! ### Errors -/

/-- R77 at the bus: an erroneous write with ERR = 0 sets ERR and its cause and nothing else; with ERR = 1
it changes nothing, so the first cause is kept. -/
def Obligations.FirstErrorCauseIsKept : Prop :=
  ∀ (i : Instr) (s : State), s.resetIn = false →
    i.carries Command.isIllegal = true ∨ i.writesReadOnly = true → ∃ t, exec i s = .next t ∧
    (s.regs.err = false → t = { s with regs := { s.regs with
      err := true, ecause := if i.writesReadOnly = true then 0b10#2 else 0b01#2 } }) ∧
    (s.regs.err = true → t = s)

/-- R78: which instructions record an error when none is recorded, with which code, and that no other
one does. -/
def Obligations.ErrorCausesAndNoOthers : Prop :=
  ∀ (i : Instr) (s t : State), s.resetIn = false → s.regs.err = false → s.regs.ecause = 0b00#2 →
    exec i s = .next t →
    (i.carries Command.isIllegal = true → t.regs.err = true ∧ t.regs.ecause = 0b01#2) ∧
    (i.writesReadOnly = true → t.regs.err = true ∧ t.regs.ecause = 0b10#2) ∧
    (i.carries Command.isIllegal = false → i.writesReadOnly = false →
      t.regs.err = false ∧ t.regs.ecause = 0b00#2) ∧
    (∀ d, i = .wrCmd d → (i.carries Command.isIllegal = true ↔ 0x6#4 ≤ d.extractLsb' 28 4))

/-- R22, R84: once recorded, an error and its cause stay through every instruction but a CLR, also
through further errors. -/
def Obligations.RecordedErrorStaysUntilClr : Prop :=
  ∀ (i : Instr) (s : State), s.regs.err = true → i.command? ≠ some .clr → ∃ t, exec i s = .next t ∧
    t.regs.err = true ∧ t.regs.ecause = s.regs.ecause

/-- R83: ERR and ECAUSE have no influence on the rest: the same instruction from two states that differ
in them only gives the same sum, phase, result and verdict flags. -/
def Obligations.ErrorsDoNotBlockTheEngine : Prop :=
  ∀ (i : Instr) (s : State) (e : Bool) (cause : BitVec 2), ∃ t t',
    exec i s = .next t ∧ exec i { s with regs := { s.regs with err := e, ecause := cause } } = .next t' ∧
    t'.regs.acc = t.regs.acc ∧ t'.regs.phase = t.regs.phase ∧ t'.regs.result = t.regs.result ∧
    t'.regs.done = t.regs.done ∧ t'.regs.mvalid = t.regs.mvalid ∧ t'.regs.matched = t.regs.matched

/-! ### Which instruction changes what -/

/-- R13's "written by" column: a register changes only under the commands it names. Besides: a read is the
only instruction after which the word returned to the host is another (R27; that a write leaves the
returned word standing is the model's choice, log entry 2), no instruction touches the reset level (R90)
or the cycles to come (R33; the list of them is the model's choice, log entry 1). -/
def Obligations.RegistersChangeOnlyUnderTheirCommands : Prop :=
  ∀ (i : Instr) (s t : State), exec i s = .next t →
    (t.regs.acc ≠ s.regs.acc → i.carries Command.isPush = true ∨ i.command? = some .clr) ∧
    (t.regs.phase ≠ s.regs.phase → (∃ b, i.command? = some (.pushb b)) ∨ i.command? = some .clr) ∧
    (t.regs.result ≠ s.regs.result →
      i.carries Command.isResult = true ∨ i.command? = some .clr) ∧
    (t.regs.done ≠ s.regs.done ∨ t.regs.mvalid ≠ s.regs.mvalid ∨ t.regs.matched ≠ s.regs.matched →
      i.carries Command.isPush = true ∨ i.carries Command.isResult = true ∨ i.command? = some .clr) ∧
    (t.regs.err ≠ s.regs.err ∨ t.regs.ecause ≠ s.regs.ecause →
      i.carries Command.isIllegal = true ∨ i.writesReadOnly = true ∨ i.command? = some .clr) ∧
    (t.rdata ≠ s.rdata → i.isRead = true) ∧ t.resetIn = s.resetIn ∧ t.queue = s.queue

/-- R19, R20, R21: how each instruction changes DONE, MVALID and MATCH. -/
def Obligations.VerdictFlagRules : Prop :=
  ∀ (i : Instr) (s : State), s.resetIn = false → ∃ t, exec i s = .next t ∧
    (i.command? = some .final →
      t.regs.done = true ∧ t.regs.mvalid = false ∧ t.regs.matched = false) ∧
    (∀ c, i.command? = some (.verify c) →
      t.regs.done = true ∧ t.regs.mvalid = true ∧ t.regs.matched = (~~~s.regs.acc == c)) ∧
    (i.carries Command.isPush = true ∨ i.command? = some .clr →
      t.regs.done = false ∧ t.regs.mvalid = false ∧ t.regs.matched = false) ∧
    (i.carries Command.isPush = false → i.carries Command.isResult = false →
      i.command? ≠ some .clr →
      t.regs.done = s.regs.done ∧ t.regs.mvalid = s.regs.mvalid ∧ t.regs.matched = s.regs.matched)

/-- R31: which instructions are idempotent, and that the pushes are not. -/
def Obligations.IdempotentTransactions : Prop :=
  (∀ (i : Instr) (s : State), i.carries Command.isPush = false →
    ∃ t, exec i s = .next t ∧ exec i t = .next t) ∧
  (∃ (b : Byte) (s t u : State), exec (.pushb b) s = .next t ∧ exec (.pushb b) t = .next u ∧ u ≠ t) ∧
  (∃ (w : Half) (s t u : State), exec (.pushw w) s = .next t ∧ exec (.pushw w) t = .next u ∧ u ≠ t)

/-! ### Decoding -/

/-- R48: OP alone selects the command, and the operands are the low bits of DATA. -/
def Obligations.DecoderByOpcode : Prop :=
  ∀ d : Word,
    (d.extractLsb' 28 4 = 0x0#4 → decodeCommand d = .nop) ∧
    (d.extractLsb' 28 4 = 0x1#4 → decodeCommand d = .clr) ∧
    (d.extractLsb' 28 4 = 0x2#4 → decodeCommand d = .pushb (d.extractLsb' 0 8)) ∧
    (d.extractLsb' 28 4 = 0x3#4 → decodeCommand d = .pushw (d.extractLsb' 0 16)) ∧
    (d.extractLsb' 28 4 = 0x4#4 → decodeCommand d = .final) ∧
    (d.extractLsb' 28 4 = 0x5#4 → decodeCommand d = .verify (d.extractLsb' 0 16)) ∧
    (d.extractLsb' 28 4 = 0x6#4 ∨ d.extractLsb' 28 4 = 0x7#4 →
      decodeCommand d = .illegalLow (d.extractLsb' 28 4)) ∧
    (0x8#4 ≤ d.extractLsb' 28 4 → decodeCommand d = .illegalHigh (d.extractLsb' 28 4))

/-- R43: every word matches exactly one row of the opcode map, the row of the command it decodes to. -/
def Obligations.OpcodeRowsPartitionTheWords : Prop :=
  ∀ d : Word, (decodeCommand d).row ∈ opcodeMap ∧
    ∀ row ∈ opcodeMap, row.hits d = true ↔ row = (decodeCommand d).row

/-- R42: words that differ only in ignored bits execute identically, and the encoder writes every ignored
bit as 0. -/
def Obligations.IgnoredBitsAreIgnored : Prop :=
  (∀ d d' : Word, d &&& (decodeCommand d).usedBits = d' &&& (decodeCommand d).usedBits →
    decodeCommand d' = decodeCommand d ∧ ∀ s : State, exec (.wrCmd d') s = exec (.wrCmd d) s) ∧
  (∀ c : Command, encodeCommand c &&& ~~~c.usedBits = 0#32)

/-- Encoding a decoded command word gives the word back with its ignored bits cleared. -/
def Obligations.EncodeAfterDecodeClearsIgnoredBits : Prop :=
  ∀ d : Word, encodeCommand (decodeCommand d) = d &&& (decodeCommand d).usedBits

/-- Decoding the frame of a well-formed instruction gives the instruction, for all of them and every
operand. The byte frame is the model's convention (log entry 3). -/
def Obligations.DecodeOfEncode : Prop :=
  ∀ i : Instr, i.wf = true → decode (encode i) = .ok i

/-- What the decoder accepts, on any bytes: a well-formed instruction, from a frame of 1, 4 or 5 bytes;
and a frame of a bus transaction has one spelling only. The byte frame is the model's convention (log
entry 3). -/
def Obligations.DecoderAcceptsOnlyFrames : Prop :=
  ∀ (bs : List Byte) (i : Instr), decode bs = .ok i →
    i.wf = true ∧ (bs.length = 1 ∨ bs.length = 4 ∨ bs.length = 5) ∧
    (bs.length ≠ 4 → encode i = bs)

/-- Words written out from R46 and R43 decode to the instructions they stand for. -/
def Obligations.WordsOfTheAssemblerTable : Prop :=
  decodeCommand 0x00000000#32 = .nop ∧ decodeCommand 0x10000000#32 = .clr ∧
  decodeCommand 0x20000012#32 = .pushb 0x12#8 ∧ decodeCommand 0x30003456#32 = .pushw 0x3456#16 ∧
  decodeCommand 0x40000000#32 = .final ∧ decodeCommand 0x5000220D#32 = .verify 0x220D#16 ∧
  decodeCommand 0x70000000#32 = .illegalLow 0x7#4 ∧ decodeCommand 0xF0000000#32 = .illegalHigh 0xF#4

/-- R46: the word of each statement, and that an immediate outside its width is an error. -/
def Obligations.AssemblerWordsAndRanges : Prop :=
  assemble .nop = .ok (.write 0#2 0x00000000#32) ∧
  assemble .clr = .ok (.write 0#2 0x10000000#32) ∧
  assemble .final = .ok (.write 0#2 0x40000000#32) ∧
  (∀ n, n ≤ 255 → assemble (.pushb n) = .ok (.write 0#2 (0x20000000#32 ||| BitVec.ofNat 32 n))) ∧
  (∀ n, n ≤ 65535 → assemble (.pushw n) = .ok (.write 0#2 (0x30000000#32 ||| BitVec.ofNat 32 n))) ∧
  (∀ n, n ≤ 65535 → assemble (.verify n) = .ok (.write 0#2 (0x50000000#32 ||| BitVec.ofNat 32 n))) ∧
  (∀ n, n < 2 ^ 32 → assemble (.word n) = .ok (.write 0#2 (BitVec.ofNat 32 n))) ∧
  (∀ n, n < 2 ^ 32 → assemble (.wr .status n) = .ok (.write 1#2 (BitVec.ofNat 32 n)) ∧
    assemble (.wr .acc n) = .ok (.write 2#2 (BitVec.ofNat 32 n)) ∧
    assemble (.wr .result n) = .ok (.write 3#2 (BitVec.ofNat 32 n))) ∧
  assemble (.rd .cmd) = .ok (.read 0#2) ∧ assemble (.rd .status) = .ok (.read 1#2) ∧
  assemble (.rd .acc) = .ok (.read 2#2) ∧ assemble (.rd .result) = .ok (.read 3#2) ∧
  (∀ n, 255 < n → assemble (.pushb n) = .error .immediateOutOfRange) ∧
  (∀ n, 65535 < n → assemble (.pushw n) = .error .immediateOutOfRange ∧
    assemble (.verify n) = .error .immediateOutOfRange) ∧
  (∀ n, 2 ^ 32 ≤ n → assemble (.word n) = .error .immediateOutOfRange ∧
    ∀ r, assemble (.wr r n) = .error .immediateOutOfRange)

/-! ### The reference functions -/

/-- R50 and R51: the words of a payload are big-endian, and the last byte of an odd payload is the high
byte of a word whose low byte is zero. -/
def Obligations.PayloadWordsAreBigEndianAndPadded : Prop :=
  (∀ (p : List Byte) (k : Nat) (h : 2 * k + 1 < p.length),
    wordAt p k = p[2 * k]'(by omega) ++ p[2 * k + 1]'h ∧
    (wordAt p k).toNat = (p[2 * k]'(by omega)).toNat * 256 + (p[2 * k + 1]'h).toNat) ∧
  (∀ (p : List Byte) (h : p.length % 2 = 1),
    wordAt p (wordCount p - 1) = p[p.length - 1]'(by omega) ++ 0x00#8)

/-- R52: the sum is exact, `fold` is the loop of the rule, it ends below 0x10000, keeps the sum modulo
0xFFFF and its positivity, and two passes are enough for 512 bytes. -/
def Obligations.FoldIsTheEndAroundCarryLoop : Prop :=
  (∀ p : List Byte, wordSum p = ((wordsOf p).map BitVec.toNat).sum) ∧
  (∀ s, s < 0x10000 → fold s = s) ∧
  (∀ s, 0x10000 ≤ s → fold s = fold (s % 0x10000 + s / 0x10000) ∧ s % 0x10000 + s / 0x10000 < s) ∧
  (∀ s, fold s ≤ 0xFFFF ∧ fold s % 0xFFFF = s % 0xFFFF ∧ (0 < s → 0 < fold s)) ∧
  (∀ p : List Byte, p.length ≤ 512 → wordSum p ≤ 0xFFFF00 ∧ fold (wordSum p) = foldPasses 2 (wordSum p))

/-- R56: the closed form of fold. -/
def Obligations.FoldClosedForm : Prop :=
  fold 0 = 0 ∧ (∀ s, 0 < s → fold s = (s - 1) % 0xFFFF + 1)

/-- R57: when the code is 0xFFFF, when it is 0x0000, and that every other code arises. -/
def Obligations.SpecialCodes : Prop :=
  (∀ p : List Byte, compute p = 0xFFFF#16 ↔ ∀ b ∈ p, b = 0x00#8) ∧
  (∀ p : List Byte, compute p = 0x0000#16 ↔ 0 < wordSum p ∧ wordSum p % 0xFFFF = 0) ∧
  compute [0xFF#8, 0xFF#8] = 0x0000#16 ∧ compute [] = 0xFFFF#16 ∧
  (∀ c : Half, c ≠ 0x0000#16 → c ≠ 0xFFFF#16 → ∃ p, compute p = c) ∧
  (∀ p : List Byte, compute p ≠ 0x0000#16 → compute p ≠ 0xFFFF#16 →
    (compute p).toNat = 0xFFFF - ((wordSum p - 1) % 0xFFFF + 1))

/-- R55 and R54: a payload's own code verifies, and no other code does. -/
def Obligations.VerifyAcceptsExactlyTheCode : Prop :=
  (∀ p : List Byte, verify p (compute p) = true) ∧
  (∀ (p : List Byte) (c : Half), verify p c = true ↔ c = compute p)

/-- R58 (a): a single byte increment always changes the code. -/
def Obligations.ByteIncrementIsDetected : Prop :=
  ∀ (p : List Byte) (i : Nat), i < p.length → compute (incrementAt p i) ≠ compute p

/-- R58 (c): a single bit flip always changes the code. -/
def Obligations.BitFlipIsDetected : Prop :=
  ∀ (p : List Byte) (i j : Nat), i < p.length → j < 8 → compute (flipBitAt p i j) ≠ compute p

/-- R58 (b): the blind spots. Reordering words, a change of the sum by a multiple of 0xFFFF between
non-zero sums (a compensating change is one by 0), and trailing zero bytes all leave the code as it
is. -/
def Obligations.BlindSpots : Prop :=
  (∀ p q : List Byte, (wordsOf p).Perm (wordsOf q) → compute p = compute q) ∧
  (∀ p q : List Byte, 0 < wordSum p → 0 < wordSum q → wordSum p % 0xFFFF = wordSum q % 0xFFFF →
    compute p = compute q) ∧
  (∀ p q : List Byte, wordSum p = wordSum q → compute p = compute q) ∧
  (∀ (p : List Byte) (n : Nat), compute (p ++ List.replicate n 0x00#8) = compute p)

/-! ### Steps and runs -/

/-- R11: a step takes one bus cycle and runs the transaction it holds. With reset low, `step` is `exec`
of the decoded transaction, in the state with the cycle taken. -/
def Obligations.StepRunsTheNextTransaction : Prop :=
  ∀ (s : State) (t : Txn) (rest : List BusCycle), s.resetIn = false → s.regs.ecause ≠ 0b11#2 →
    s.queue = { reset := false, txn := some t } :: rest →
    step s = exec (decodeTxn t) { s with queue := rest }

/-- A command word put where the next step takes its instruction runs as the command it decodes to (the
model's way of issuing a word, log entry 1). -/
def Obligations.IssuedCommandWordRuns : Prop :=
  ∀ (s : State) (d : Word), s.resetIn = false → s.regs.ecause ≠ 0b11#2 →
    step (s.withFetchWord 32 d.toNat) = exec (decodeCommand d).toInstr s

/-- R97: a step changes the registers the bus sees only in a cycle with a bus write or with reset
asserted. The second clause, that with no cycle to take a step answers the same state, is the model's
reading of R97, log entry 12, with the premise of log entry 6. -/
def Obligations.OnlyWritesAndResetChangeRegisters : Prop :=
  (∀ s t : State, step s = .next t → t.view ≠ s.view →
    ∃ c rest, s.queue = c :: rest ∧ (c.reset = true ∨ ∃ a d, c.txn = some (.write a d))) ∧
  (∀ s : State, s.view.ecause ≠ 0b11#2 → s.queue = [] → step s = .next s)

/-- R95: a read right after a write returns the state after it; FINAL then RD RESULT returns the code and
VERIFY then RD STATUS the verdict, of the payload pushed. -/
def Obligations.ReadAfterWrite : Prop :=
  (∀ (a a' : RegIndex) (d : Word) (s t : State), exec (decodeTxn (.write a d)) s = .next t →
    exec (decodeTxn (.read a')) t =
      .next { t with rdata := some (t.view.readWord (BusReg.ofIndex a')) }) ∧
  (∀ (h : History) (s : State), s.resetIn = false → Holds h s.regs → ∃ t,
    execAll [.final, .rdResult] s = .next t ∧ t.rdata = some ((compute h.pushed).setWidth 32)) ∧
  (∀ (h : History) (c : Half) (s : State), s.resetIn = false → Holds h s.regs → ∃ t w,
    execAll [.verify c, .rdStatus] s = .next t ∧ t.rdata = some w ∧
      w.getLsbD 2 = true ∧ w.getLsbD 3 = verify h.pushed c)

/-- The invariant `State.Ok` holds right after reset. -/
def Obligations.InvariantHoldsAtReset : Prop := State.reset.Ok

/-- Every step keeps the invariant `State.Ok`. -/
def Obligations.EveryStepKeepsTheInvariant : Prop :=
  ∀ s t : State, s.Ok → step s = .next t → t.Ok

/-- The one stop: the reserved code of ECAUSE, which 93_implementation_defined.md asks to fault on. A step
faults exactly in such a state, and never refuses; so from a state that satisfies the invariant the
engine always goes on (R76, R83, R88). -/
def Obligations.OnlyTheReservedCauseFaults : Prop :=
  ∀ s : State, (s.view.ecause = 0b11#2 → step s = .fault .ecauseReserved) ∧
    (s.view.ecause ≠ 0b11#2 → ∃ t, step s = .next t) ∧ (s.Ok → ∃ t, step s = .next t)

/-- R62, R67, R68: every step keeps what the registers hold of the history: ACC the folded sum of the
bytes pushed, PHASE their parity, RESULT their code while DONE, MATCH the verdict while MVALID. -/
def Obligations.EveryStepKeepsTheHistory : Prop :=
  ∀ (h : History) (s t : State), Holds h s.view → step s = .next t →
    (s.queue = [] → Holds h t.view) ∧
    (∀ c rest, s.queue = c :: rest → Holds (h.cycle c) t.view)

/-- R62, R67, R68 over whole runs: whatever bus cycles the host issues from reset, the machine takes them
all, the registers then hold what the spec says of the history, and they are in order (R22). The list of
cycles is the model's choice, log entry 1, and so is what the cycle that deasserts reset does, log
entry 5. -/
def Obligations.EveryRunHoldsItsHistory : Prop :=
  ∀ cs : List BusCycle, ∃ t : State,
    Sys2Proof.core.run cs.length (State.reset.withCycles cs) = .next t ∧ t.queue = [] ∧
    t.Ok ∧ Holds (History.start.cycles cs) t.view

/-- R63: from any state that holds a history, the complement of ACC is the code of the bytes pushed,
whatever their parity. -/
def Obligations.RunningCodeIsTheCode : Prop :=
  ∀ (h : History) (r : Regs), Holds h r → ~~~r.acc = compute h.pushed

/-! ### Payloads -/

/-- R47: the expansion of PUSHBYTES pushes exactly its bytes, from any state, at either phase. -/
def Obligations.PushBytesPushesExactlyItsBytes : Prop :=
  ∀ (p : List Byte) (s : State), ∃ t, execAll (pushBytes p) s = .next t ∧
    execAll (p.map Instr.pushb) s = .next t

/-- R47, R49, R63, R65: CSUM computes `compute` of any payload, from any state, with ERR cleared and the
code readable; it leaves the cycles to come as they were (the model's list, log entry 1). -/
def Obligations.CsumComputesTheCode : Prop :=
  ∀ (p : List Byte) (s : State), s.resetIn = false → ∃ t,
    execAll (csum p ++ [.rdResult]) s = .next t ∧
    t.rdata = some ((compute p).setWidth 32) ∧ t.regs.result = compute p ∧ t.regs.done = true ∧
    t.regs.mvalid = false ∧ t.regs.err = false ∧
    t.regs.phase = decide (p.length % 2 = 1) ∧ t.queue = s.queue

/-- R47, R54, R66, R68: CHECK verifies any payload against any code, from any state; it leaves the cycles
to come as they were (the model's list, log entry 1). -/
def Obligations.CheckVerifiesThePayload : Prop :=
  ∀ (c : Half) (p : List Byte) (s : State), s.resetIn = false → ∃ t,
    execAll (check c p) s = .next t ∧ t.regs.matched = verify p c ∧ t.regs.mvalid = true ∧
    t.regs.done = true ∧ t.regs.result = compute p ∧ t.regs.err = false ∧ t.queue = s.queue

/-- R93: without a CLR between them, two payloads give the code of their concatenation, at the byte
level, and no error. -/
def Obligations.MissingClrConcatenates : Prop :=
  ∀ (p q : List Byte) (s : State), s.resetIn = false → ∃ t,
    execAll (csum p ++ pushBytes q ++ [.final]) s = .next t ∧ t.regs.result = compute (p ++ q) ∧
    t.regs.err = false

/-- R38 with R67 and R68. A read's observation is the code, or the verdict of the latest VERIFY, of the
bytes pushed. A computation ends at the first read of RESULT while DONE = 1 or of STATUS while
MVALID = 1, with the code or MATCH as its observation, and at no other transaction; once it has ended it
stays as it is until a CLR or reset starts another. What a computation has observed is the reference
value of its own transactions: every step keeps that, and it holds after any bus cycles from reset. The
list of cycles is the model's choice (log entry 1), and so is taking the transaction of the cycle that
deasserts reset (log entry 5). -/
def Obligations.ObservationIsTheReferenceValue : Prop :=
  (∀ (h : History) (i : Instr) (s : State), s.resetIn = false → Holds h s.regs → ∃ t,
    exec i s = .next t ∧ ∀ w, t.rdata = some w →
      (∀ c, observation i s.regs w = some (.code c) → c = compute h.pushed) ∧
      (∀ m, observation i s.regs w = some (.verdict m) →
        ∃ c, h.expected = some c ∧ m = verify h.pushed c)) ∧
  (∀ (k : Computation) (x : Txn) (rest : List BusCycle) (s t : State), k.observed = none →
    s.queue = { reset := false, txn := some x } :: rest → step s = .next t →
    (k.cycle { reset := false, txn := some x } s t).observed =
      if decodeTxn x = .rdResult ∧ s.view.done = true then some (.code s.view.result)
      else if decodeTxn x = .rdStatus ∧ s.view.mvalid = true then some (.verdict s.view.matched)
      else none) ∧
  (∀ (k : Computation) (c : BusCycle) (s t : State), k.observed ≠ none → c.reset = false →
    (∀ x, c.txn = some x → (decodeTxn x).command? ≠ some .clr) → k.cycle c s t = k) ∧
  (∀ (k : Computation) (c : BusCycle) (rest : List BusCycle) (s t : State), k.Correct →
    (k.observed = none → Holds k.history s.view) → s.queue = c :: rest → step s = .next t →
    (k.cycle c s t).Correct ∧
    ((k.cycle c s t).observed = none → Holds (k.cycle c s t).history t.view)) ∧
  (∀ cs : List BusCycle,
    (Computation.after cs.length (State.reset.withCycles cs) Computation.start).Correct)

/-! ### The system -/

/-- R37: when two masters push words, the state reached does not depend on how their transactions
interleave: their payloads join one sum. -/
def Obligations.TwoMastersWordsJoinOneSum : Prop :=
  ∀ (xs ys zs : List Half) (s : State), Interleaving xs ys zs → ∃ t,
    execAll (zs.map Instr.pushw) s = .next t ∧ execAll ((xs ++ ys).map Instr.pushw) s = .next t

/-- R86: a step of one engine of a system is the step of that engine alone; no other engine changes and
none is lost; each starts at its own reset. The engines are told apart by their base addresses: their
words do not overlap, an access finds exactly the engine and register whose address it names, and it,
and one engine's reset, reach that engine alone. Numbering the engines by their addresses is the model's
choice (log entry 9), and so is the list of cycles an access joins (log entry 1). -/
def Obligations.EnginesAreIndependent : Prop :=
  (∀ (y y' : System) (k : Nat), y.stepEngine k = some (.next y') →
    y'.engines.length = y.engines.length ∧
    (∃ s t, y.engines[k]? = some s ∧ step s = .next t ∧ y'.engines[k]? = some t) ∧
    ∀ j, j ≠ k → y'.engines[j]? = y.engines[j]?) ∧
  System.reset.wf = true ∧ 1 ≤ Config.engineCount ∧
  (∀ (k : Nat) (s : State), System.reset.engines[k]? = some s → s = State.reset) ∧
  (∀ j k : Nat, j < k → Config.csumBase j + 16 ≤ Config.csumBase k) ∧
  (∀ (addr size k : Nat) (a : RegIndex), route addr size = .ok (k, a) ↔
    k < Config.engineCount ∧ size = 4 ∧ addr = busAddress (Config.csumBase k) a) ∧
  (∀ (m : Access) (y : System) (k : Nat) (a : RegIndex), y.wf = true → route m.addr m.size = .ok (k, a) →
    ∃ y' s, y.access m = .ok y' ∧ y'.wf = true ∧ y.engines[k]? = some s ∧
      y'.engines[k]? = some { s with queue := s.queue ++ [{ reset := false, txn := some (m.txn a) }] } ∧
      ∀ j, j ≠ k → y'.engines[j]? = y.engines[j]?) ∧
  (∀ (y : System) (k : Nat) (s : State), y.engines[k]? = some s →
    (y.resetEngine k).engines[k]? =
      some { s with queue := s.queue ++ [{ reset := true, txn := none }] } ∧
    ∀ j, j ≠ k → (y.resetEngine k).engines[j]? = y.engines[j]?)

/-- R25, R30, R32: an access of a byte-addressed system selects a register of an engine exactly when it is
of one whole word at one of the engine's four word addresses; every other access is refused by name. R30
asks for the refusals; which name an access gets that is wrong in several ways is the model's choice
(log entry 9). -/
def Obligations.BridgeSelectsWholeWordsOnly : Prop :=
  (∀ k, Config.csumBase k % 16 = 0) ∧
  (∀ (k : Nat) (a : RegIndex), bridgeSelect (Config.csumBase k) (busAddress (Config.csumBase k) a) 4 = .ok a) ∧
  (∀ (k addr size : Nat) (a : RegIndex), bridgeSelect (Config.csumBase k) addr size = .ok a →
    size = 4 ∧ addr = busAddress (Config.csumBase k) a) ∧
  (∀ k addr size : Nat, addr < Config.csumBase k ∨ Config.csumBase k + 16 ≤ addr →
    bridgeSelect (Config.csumBase k) addr size = .error .notThisEngine) ∧
  (∀ k addr size : Nat, Config.csumBase k ≤ addr → addr < Config.csumBase k + 16 → size ≠ 4 →
    bridgeSelect (Config.csumBase k) addr size = .error .notOneWord) ∧
  (∀ k addr : Nat, Config.csumBase k ≤ addr → addr < Config.csumBase k + 16 → addr % 4 ≠ 0 →
    bridgeSelect (Config.csumBase k) addr 4 = .error .misaligned)
end

