-- ==== Sys2Proof/Laws/State.lean ====
section
/-! SUPPORT. One lemma per field per update of the registers and of the state, each true by `rfl`, so
that no proof unfolds a record update. An update is named in the lemma, the field after it. -/

namespace Sys2Proof.Machine

section Regs
variable (r : Regs) (x : Half) (v : Bool)

@[simp] theorem Regs.markStale_acc : r.markStale.acc = r.acc := rfl
@[simp] theorem Regs.markStale_phase : r.markStale.phase = r.phase := rfl
@[simp] theorem Regs.markStale_result : r.markStale.result = r.result := rfl
@[simp] theorem Regs.markStale_done : r.markStale.done = false := rfl
@[simp] theorem Regs.markStale_mvalid : r.markStale.mvalid = false := rfl
@[simp] theorem Regs.markStale_matched : r.markStale.matched = false := rfl
@[simp] theorem Regs.markStale_err : r.markStale.err = r.err := rfl
@[simp] theorem Regs.markStale_ecause : r.markStale.ecause = r.ecause := rfl

@[simp] theorem Regs.markDone_acc : r.markDone.acc = r.acc := rfl
@[simp] theorem Regs.markDone_phase : r.markDone.phase = r.phase := rfl
@[simp] theorem Regs.markDone_result : r.markDone.result = r.result := rfl
@[simp] theorem Regs.markDone_done : r.markDone.done = true := rfl
@[simp] theorem Regs.markDone_mvalid : r.markDone.mvalid = false := rfl
@[simp] theorem Regs.markDone_matched : r.markDone.matched = false := rfl
@[simp] theorem Regs.markDone_err : r.markDone.err = r.err := rfl
@[simp] theorem Regs.markDone_ecause : r.markDone.ecause = r.ecause := rfl

@[simp] theorem Regs.markVerdict_acc : (r.markVerdict v).acc = r.acc := rfl
@[simp] theorem Regs.markVerdict_phase : (r.markVerdict v).phase = r.phase := rfl
@[simp] theorem Regs.markVerdict_result : (r.markVerdict v).result = r.result := rfl
@[simp] theorem Regs.markVerdict_done : (r.markVerdict v).done = true := rfl
@[simp] theorem Regs.markVerdict_mvalid : (r.markVerdict v).mvalid = true := rfl
@[simp] theorem Regs.markVerdict_matched : (r.markVerdict v).matched = v := rfl
@[simp] theorem Regs.markVerdict_err : (r.markVerdict v).err = r.err := rfl
@[simp] theorem Regs.markVerdict_ecause : (r.markVerdict v).ecause = r.ecause := rfl

@[simp] theorem Regs.accumulate_acc : (r.accumulate x).acc = ocadd16 r.acc x := rfl
@[simp] theorem Regs.accumulate_phase : (r.accumulate x).phase = r.phase := rfl
@[simp] theorem Regs.accumulate_result : (r.accumulate x).result = r.result := rfl
@[simp] theorem Regs.accumulate_done : (r.accumulate x).done = r.done := rfl
@[simp] theorem Regs.accumulate_mvalid : (r.accumulate x).mvalid = r.mvalid := rfl
@[simp] theorem Regs.accumulate_matched : (r.accumulate x).matched = r.matched := rfl
@[simp] theorem Regs.accumulate_err : (r.accumulate x).err = r.err := rfl
@[simp] theorem Regs.accumulate_ecause : (r.accumulate x).ecause = r.ecause := rfl

@[simp] theorem Regs.latchCode_acc : r.latchCode.acc = r.acc := rfl
@[simp] theorem Regs.latchCode_phase : r.latchCode.phase = r.phase := rfl
@[simp] theorem Regs.latchCode_result : r.latchCode.result = ~~~r.acc := rfl
@[simp] theorem Regs.latchCode_done : r.latchCode.done = r.done := rfl
@[simp] theorem Regs.latchCode_mvalid : r.latchCode.mvalid = r.mvalid := rfl
@[simp] theorem Regs.latchCode_matched : r.latchCode.matched = r.matched := rfl
@[simp] theorem Regs.latchCode_err : r.latchCode.err = r.err := rfl
@[simp] theorem Regs.latchCode_ecause : r.latchCode.ecause = r.ecause := rfl

theorem Regs.runningCode_eq : r.runningCode = ~~~r.acc := rfl

end Regs

section State
variable (s : State) (a : BusReg) (b : Bool) (c : BusCycle) (rest : List BusCycle) (t : Txn)
  (cs : List BusCycle)

@[simp] theorem State.busRead_regs : (s.busRead a).regs = s.regs := rfl
@[simp] theorem State.busRead_resetIn : (s.busRead a).resetIn = s.resetIn := rfl
@[simp] theorem State.busRead_queue : (s.busRead a).queue = s.queue := rfl
@[simp] theorem State.busRead_rdata : (s.busRead a).rdata = some (s.view.readWord a) := rfl

@[simp] theorem State.sampleReset_resetIn : (s.sampleReset b).resetIn = b := rfl
@[simp] theorem State.sampleReset_queue : (s.sampleReset b).queue = s.queue := rfl
@[simp] theorem State.sampleReset_rdata : (s.sampleReset b).rdata = s.rdata := rfl
@[simp] theorem State.sampleReset_true_regs : (s.sampleReset true).regs = Regs.reset := rfl
@[simp] theorem State.sampleReset_false_regs : (s.sampleReset false).regs = s.view := rfl

@[simp] theorem State.takeCycle_resetIn : (s.takeCycle c rest).resetIn = c.reset := rfl
@[simp] theorem State.takeCycle_queue : (s.takeCycle c rest).queue = rest := rfl
@[simp] theorem State.takeCycle_rdata : (s.takeCycle c rest).rdata = s.rdata := rfl

@[simp] theorem State.issueNext_regs : (s.issueNext t).regs = s.regs := rfl
@[simp] theorem State.issueNext_resetIn : (s.issueNext t).resetIn = s.resetIn := rfl
@[simp] theorem State.issueNext_rdata : (s.issueNext t).rdata = s.rdata := rfl
@[simp] theorem State.issueNext_queue :
    (s.issueNext t).queue = { reset := false, txn := some t } :: s.queue := rfl

@[simp] theorem State.issueLast_regs : (s.issueLast c).regs = s.regs := rfl
@[simp] theorem State.issueLast_resetIn : (s.issueLast c).resetIn = s.resetIn := rfl
@[simp] theorem State.issueLast_rdata : (s.issueLast c).rdata = s.rdata := rfl
@[simp] theorem State.issueLast_queue : (s.issueLast c).queue = s.queue ++ [c] := rfl

@[simp] theorem State.withCycles_regs : (s.withCycles cs).regs = s.regs := rfl
@[simp] theorem State.withCycles_resetIn : (s.withCycles cs).resetIn = s.resetIn := rfl
@[simp] theorem State.withCycles_rdata : (s.withCycles cs).rdata = s.rdata := rfl
@[simp] theorem State.withCycles_queue : (s.withCycles cs).queue = cs ++ s.queue := rfl

end State

end Sys2Proof.Machine
end

