-- ==== Sys2Proof/Laws/Ops.lean ====
section
/-! SUPPORT. One spec lemma per shared operation, and the inversion lemmas of `exec` and `step`: what
they can do, said once. -/

namespace Sys2Proof.Machine

/-! ### The adder -/

/-- `ocadd16` as numbers: the sum, less 0xFFFF if it does not fit in 16 bits. -/
theorem ocadd16_toNat (a x : Half) :
    (ocadd16 a x).toNat =
      if a.toNat + x.toNat < 0x10000 then a.toNat + x.toNat else a.toNat + x.toNat - 0xFFFF := by
  have ha := a.isLt
  have hx := x.isLt
  simp only [ocadd16, BitVec.toNat_add, BitVec.extractLsb'_toNat, BitVec.toNat_setWidth,
    Nat.shiftRight_eq_div_pow]
  split <;> omega

theorem ocadd16_zero (a : Half) : ocadd16 a 0#16 = a := by
  apply BitVec.eq_of_toNat_eq
  rw [ocadd16_toNat, if_pos (by simpa using a.isLt)]
  simp

/-- `{b1, b0}` as a number (R9). -/
theorem byte_append_toNat (b1 b0 : Byte) : (b1 ++ b0).toNat = b1.toNat * 256 + b0.toNat := by
  rw [BitVec.toNat_append, ← Nat.shiftLeft_add_eq_or_of_lt b0.isLt, Nat.shiftLeft_eq]

theorem highContribution_toNat (b : Byte) : (highContribution b).toNat = b.toNat * 256 := by
  exact (byte_append_toNat b 0#8).trans (by simp)

theorem lowContribution_toNat (b : Byte) : (lowContribution b).toNat = b.toNat := by
  exact (byte_append_toNat 0#8 b).trans (by simp)

/-! ### Errors -/

theorem Regs.raiseErr_of_err {r : Regs} (c : BitVec 2) (h : r.err = true) : r.raiseErr c = r := by
  simp [Regs.raiseErr, h]

theorem Regs.raiseErr_of_noErr {r : Regs} (c : BitVec 2) (h : r.err = false) :
    r.raiseErr c = { r with err := true, ecause := c } := by
  simp [Regs.raiseErr, h]

/-- Raising an error leaves every register but ERR and ECAUSE as it was. -/
theorem Regs.raiseErr_frame (r : Regs) (c : BitVec 2) :
    (r.raiseErr c).acc = r.acc ∧ (r.raiseErr c).phase = r.phase ∧ (r.raiseErr c).result = r.result ∧
      (r.raiseErr c).done = r.done ∧ (r.raiseErr c).mvalid = r.mvalid ∧
      (r.raiseErr c).matched = r.matched := by
  unfold Regs.raiseErr
  split <;> simp

theorem Regs.raiseErr_err (r : Regs) (c : BitVec 2) : (r.raiseErr c).err = true := by
  unfold Regs.raiseErr
  split <;> simp_all

/-! ### The bus under the reset input -/

theorem State.view_of_running {s : State} (h : s.resetIn = false) : s.view = s.regs := by
  simp [State.view, h]

theorem State.view_in_reset {s : State} (h : s.resetIn = true) : s.view = Regs.reset := by
  simp [State.view, h]

theorem State.busWrite_of_running {s : State} (f : Regs → Regs) (h : s.resetIn = false) :
    s.busWrite f = { s with regs := f s.regs } := by
  simp [State.busWrite, h]

theorem State.busWrite_in_reset {s : State} (f : Regs → Regs) (h : s.resetIn = true) :
    s.busWrite f = s := by
  simp [State.busWrite, h]

/-- A bus write changes nothing but registers. -/
@[simp] theorem State.busWrite_resetIn (s : State) (f : Regs → Regs) :
    (s.busWrite f).resetIn = s.resetIn := by
  unfold State.busWrite
  split <;> rfl

@[simp] theorem State.busWrite_queue (s : State) (f : Regs → Regs) :
    (s.busWrite f).queue = s.queue := by
  unfold State.busWrite
  split <;> rfl

@[simp] theorem State.busWrite_rdata (s : State) (f : Regs → Regs) :
    (s.busWrite f).rdata = s.rdata := by
  unfold State.busWrite
  split <;> rfl

/-- What the bus sees after a write: the effect, or the reset values while reset is asserted. -/
theorem State.busWrite_view (s : State) (f : Regs → Regs) :
    (s.busWrite f).view = if s.resetIn then Regs.reset else f s.view := by
  cases h : s.resetIn <;> simp [State.busWrite, State.view, h]

theorem State.takeCycle_view (s : State) (c : BusCycle) (rest : List BusCycle) :
    (s.takeCycle c rest).view = if c.reset then Regs.reset else s.view := by
  cases h : c.reset <;> simp [State.takeCycle, State.view, State.sampleReset, h]

/-! ### What an instruction can do -/

/-- The effect of a command on the registers. -/
def commandEffect : Command → Regs → Regs
  | .nop => id
  | .clr => clrEffect
  | .pushb b => pushbEffect b
  | .pushw w => pushwEffect w
  | .final => finalEffect
  | .verify c => verifyEffect c
  | .illegalLow op => illegalEffect op
  | .illegalHigh op => illegalEffect op

theorem execCommand_eq (c : Command) (s : State) :
    execCommand c s = .next (s.busWrite (commandEffect c)) := by
  cases c
  case nop => simp [execCommand, execNop, commandEffect, State.busWrite]
  all_goals rfl

/-- An instruction that carries a command to CMD executes it (R26). -/
theorem exec_eq_execCommand {i : Instr} {c : Command} (h : i.command? = some c) (s : State) :
    exec i s = execCommand c s := by
  cases i <;> cases h <;> rfl

/-- Every instruction is a command to CMD, a read, or a write to a read-only register; `exec` answers
the next state its kind gives. -/
theorem exec_inversion (i : Instr) (s : State) :
    (∃ c, i.command? = some c ∧ exec i s = .next (s.busWrite (commandEffect c))) ∨
    (∃ a : BusReg, i = a.readInstr ∧ exec i s = .next (s.busRead a)) ∨
    (∃ d, (i = .wrStatus d ∨ i = .wrAcc d ∨ i = .wrResult d) ∧
      exec i s = .next (s.busWrite (roWriteEffect d))) := by
  cases i
  case rdCmd => exact .inr (.inl ⟨.cmd, rfl, rfl⟩)
  case rdStatus => exact .inr (.inl ⟨.status, rfl, rfl⟩)
  case rdAcc => exact .inr (.inl ⟨.acc, rfl, rfl⟩)
  case rdResult => exact .inr (.inl ⟨.result, rfl, rfl⟩)
  case wrStatus d => exact .inr (.inr ⟨d, .inl rfl, rfl⟩)
  case wrAcc d => exact .inr (.inr ⟨d, .inr (.inl rfl), rfl⟩)
  case wrResult d => exact .inr (.inr ⟨d, .inr (.inr rfl), rfl⟩)
  all_goals exact .inl ⟨_, rfl, (exec_eq_execCommand rfl s).trans (execCommand_eq _ s)⟩

/-- What a step can do: it faults on the reserved cause, stands still with no bus cycle to take, samples
reset in a cycle without a transaction, or runs the transaction of the cycle it takes. -/
theorem step_inversion (s : State) :
    (s.view.ecause = causeReserved ∧ step s = .fault .ecauseReserved) ∨
    (s.view.ecause ≠ causeReserved ∧
      ((s.queue = [] ∧ step s = .next s) ∨
       ∃ c rest, s.queue = c :: rest ∧
        ((c.txn = none ∧ step s = .next (s.takeCycle c rest)) ∨
         ∃ t, c.txn = some t ∧ step s = exec (decodeTxn t) (s.takeCycle c rest)))) := by
  by_cases hc : s.view.ecause = causeReserved
  · exact .inl ⟨hc, by simp [step, State.seesReservedCause, hc]⟩
  · refine .inr ⟨hc, ?_⟩
    have hf : s.seesReservedCause = false := by simpa [State.seesReservedCause] using hc
    cases hq : s.queue with
    | nil => exact .inl ⟨rfl, by simp [step, hf, hq]⟩
    | cons c rest =>
      refine .inr ⟨c, rest, rfl, ?_⟩
      cases ht : c.txn with
      | none => exact .inl ⟨rfl, by simp [step, hf, hq, ht]⟩
      | some t => exact .inr ⟨t, rfl, by simp [step, hf, hq, ht]⟩

end Sys2Proof.Machine
end

