-- ==== Sys2Proof/Laws/Checksum.lean ====
section
/-! SUPPORT. The reference functions: one pass of `fold`, and the word sum read off the list. -/

namespace Sys2Proof.Machine

/-- A pass of the fold on a sum that does not fit strictly decreases it (R52). -/
theorem fold_pass_lt {s : Nat} (h : 0x10000 ≤ s) : s % 0x10000 + s / 0x10000 < s := by omega

/-- Passes beyond `s` change nothing. -/
theorem foldPasses_eq_of_le (m n s : Nat) (hm : s ≤ m) (hn : s ≤ n) :
    foldPasses m s = foldPasses n s := by
  induction m generalizing n s with
  | zero =>
    obtain rfl : s = 0 := by omega
    cases n <;> simp [foldPasses]
  | succ m ih =>
    cases n with
    | zero =>
      obtain rfl : s = 0 := by omega
      simp [foldPasses]
    | succ n =>
      simp only [foldPasses]
      split
      · have := fold_pass_lt (s := s) (by omega)
        exact ih n _ (by omega) (by omega)
      · rfl

/-- `fold` as the loop of R52: one pass and on, or the sum itself. -/
theorem fold_eq (s : Nat) :
    fold s = if s ≥ 0x10000 then fold (s % 0x10000 + s / 0x10000) else s := by
  unfold fold
  cases s with
  | zero => rfl
  | succ n =>
    rw [foldPasses]
    split
    · have := fold_pass_lt (s := n + 1) (by omega)
      exact foldPasses_eq_of_le _ _ _ (by omega) (by omega)
    · rfl

/-- `fold` by its passes: a property that every pass keeps holds of the result. -/
theorem fold_induction (motive : Nat → Nat → Prop) (small : ∀ s < 0x10000, motive s s)
    (pass : ∀ s ≥ 0x10000, motive (s % 0x10000 + s / 0x10000) (fold s) → motive s (fold s))
    (s : Nat) : motive s (fold s) := by
  induction s using Nat.strongRecOn with
  | ind s ih =>
    by_cases h : s ≥ 0x10000
    · apply pass s h
      have := ih _ (fold_pass_lt h)
      rwa [fold_eq s, if_pos h]
    · have := small s (by omega)
      rwa [fold_eq s, if_neg h]

@[simp] theorem payloadByte_cons_succ (b : Byte) (p : List Byte) (i : Nat) :
    payloadByte (b :: p) (i + 1) = payloadByte p i := rfl

@[simp] theorem payloadByte_cons_zero (b : Byte) (p : List Byte) : payloadByte (b :: p) 0 = b := rfl

theorem wordCount_cons_cons (b1 b0 : Byte) (p : List Byte) :
    wordCount (b1 :: b0 :: p) = wordCount p + 1 := by
  simp [wordCount]
  omega

theorem wordAt_cons_cons_succ (b1 b0 : Byte) (p : List Byte) (k : Nat) :
    wordAt (b1 :: b0 :: p) (k + 1) = wordAt p k := by
  simp only [wordAt, List.length_cons, show 2 * (k + 1) = 2 * k + 1 + 1 from rfl,
    payloadByte_cons_succ]
  congr 1
  simp

/-- The sum over indices (R49) is the sum of the words read off the list. -/
theorem wordSum_eq_wordsOf (p : List Byte) : wordSum p = ((wordsOf p).map BitVec.toNat).sum := by
  induction p using wordsOf.induct with
  | case1 => rfl
  | case2 b => simp [wordSum, wordCount, wordAt, wordsOf]
  | case3 b1 b0 rest ih =>
    rw [wordsOf, List.map_cons, List.sum_cons, ← ih]
    simp only [wordSum, wordCount_cons_cons, List.range_succ_eq_map, List.map_cons, List.map_map,
      List.sum_cons]
    congr 1
    congr 1
    apply List.map_congr_left
    intro k _
    simp [wordAt_cons_cons_succ]

theorem wordSum_nil : wordSum [] = 0 := rfl

theorem wordSum_cons_cons (b1 b0 : Byte) (p : List Byte) :
    wordSum (b1 :: b0 :: p) = b1.toNat * 256 + b0.toNat + wordSum p := by
  simp only [wordSum_eq_wordsOf, wordsOf, List.map_cons, List.sum_cons, byte_append_toNat]

theorem wordSum_singleton (b : Byte) : wordSum [b] = b.toNat * 256 := by
  simp only [wordSum_eq_wordsOf, wordsOf, List.map_cons, List.map_nil, List.sum_cons, List.sum_nil]
  exact highContribution_toNat b

/-- The contribution of a byte pushed after a payload is what it adds to the word sum (R62). -/
theorem wordSum_append_byte (p : List Byte) (b : Byte) :
    wordSum (p ++ [b]) = wordSum p + if p.length % 2 = 1 then b.toNat else b.toNat * 256 := by
  induction p using wordsOf.induct with
  | case1 => simp [wordSum_singleton, wordSum_nil]
  | case2 a => simp [wordSum_cons_cons, wordSum_singleton, wordSum_nil]
  | case3 b1 b0 rest ih =>
    have hl : (b1 :: b0 :: rest).length % 2 = rest.length % 2 := by simp; omega
    rw [List.cons_append, List.cons_append, wordSum_cons_cons, ih, wordSum_cons_cons, hl]
    omega

end Sys2Proof.Machine
end

