-- ==== Sys2Proof/Laws/Computation.lean ====
section
/-! SUPPORT. A computation (R38): what a bus cycle does to it, case by case, and its history. -/

namespace Sys2Proof.Machine

@[simp] theorem Computation.start_observed : Computation.start.observed = none := rfl

@[simp] theorem Computation.start_history : Computation.start.history = History.start := rfl

/-- A transaction that joins is the last one of the history. -/
theorem Computation.history_append (ts : List Txn) (x : Txn) (o o' : Option Observation) :
    Computation.history { txns := ts ++ [x], observed := o } =
      (Computation.history { txns := ts, observed := o' }).instr (decodeTxn x) := by
  simp [Computation.history]

/-- Reset starts a new computation. -/
theorem Computation.cycle_reset {c : BusCycle} (h : c.reset = true) (s t : State) (k : Computation) :
    k.cycle c s t = Computation.start := by
  simp [Computation.cycle, h]

/-- A cycle without a transaction is in no computation. -/
theorem Computation.cycle_idle {c : BusCycle} (h : c.reset = false) (hx : c.txn = none) (s t : State)
    (k : Computation) : k.cycle c s t = k := by
  simp [Computation.cycle, h, hx]

/-- A cycle with reset deasserted is its transaction, with the registers before and the word after it. -/
theorem Computation.cycle_txn {c : BusCycle} {x : Txn} (h : c.reset = false) (hx : c.txn = some x)
    (s t : State) (k : Computation) : k.cycle c s t = k.txn x s.view t.rdata := by
  simp [Computation.cycle, h, hx]

/-- CLR starts a new computation. -/
theorem Computation.txn_clr {x : Txn} (h : (decodeTxn x).command? = some .clr) (r : Regs)
    (w : Option Word) (k : Computation) : k.txn x r w = { txns := [x], observed := none } := by
  simp [Computation.txn, h]

/-- A transaction after the end, but a CLR, is in no computation. -/
theorem Computation.txn_ended {x : Txn} {k : Computation} {o : Observation}
    (h : (decodeTxn x).command? ≠ some .clr) (ho : k.observed = some o) (r : Regs) (w : Option Word) :
    k.txn x r w = k := by
  simp [Computation.txn, h, ho]

/-- Any other transaction joins the computation, which it may end. -/
theorem Computation.txn_joins {x : Txn} {k : Computation} (h : (decodeTxn x).command? ≠ some .clr)
    (ho : k.observed = none) (r : Regs) (w : Option Word) :
    k.txn x r w =
      { txns := k.txns ++ [x], observed := w.bind (observation (decodeTxn x) r) } := by
  simp [Computation.txn, h, ho]

end Sys2Proof.Machine
end

