-- ==== Sys2Proof/Laws/PerInstr.lean ====
section
/-! SUPPORT. Statements made per instruction. `FrameLength`: an instruction's frame has the length of its
kind, 4 bytes for a command word, 1 for a bus read, 5 for a bus write (log entry 3). -/

namespace Sys2Proof.Laws.FrameLength

/-- The number of bytes of an instruction's frame. -/
def frameLength : Instr → Nat
  | .nop | .clr | .pushb _ | .pushw _ | .final | .verify _ => 4
  | .illegalLow _ | .illegalHigh _ => 4
  | .rdCmd | .rdStatus | .rdAcc | .rdResult => 1
  | .wrCmd _ | .wrStatus _ | .wrAcc _ | .wrResult _ => 5

def Statement (i : Instr) : Prop := (encode i).length = frameLength i

theorem nop : Statement .nop := rfl
theorem clr : Statement .clr := rfl
theorem pushb (b : Byte) : Statement (.pushb b) := rfl
theorem pushw (w : Half) : Statement (.pushw w) := rfl
theorem final : Statement .final := rfl
theorem verify (c : Half) : Statement (.verify c) := rfl
theorem illegalLow (op : BitVec 4) : Statement (.illegalLow op) := rfl
theorem illegalHigh (op : BitVec 4) : Statement (.illegalHigh op) := rfl
theorem rdCmd : Statement .rdCmd := rfl
theorem rdStatus : Statement .rdStatus := rfl
theorem rdAcc : Statement .rdAcc := rfl
theorem rdResult : Statement .rdResult := rfl
theorem wrCmd (d : Word) : Statement (.wrCmd d) := rfl
theorem wrStatus (d : Word) : Statement (.wrStatus d) := rfl
theorem wrAcc (d : Word) : Statement (.wrAcc d) := rfl
theorem wrResult (d : Word) : Statement (.wrResult d) := rfl

end Sys2Proof.Laws.FrameLength
end

