-- ==== Sys2Proof/Laws/System.lean ====
section
/-! SUPPORT. The address map of a system: the bases are aligned, and what routing an access can do. -/

namespace Sys2Proof

theorem Config.csumBase_aligned (k : Nat) : Config.csumBase k % 16 = 0 := by
  induction k with
  | zero => simp [Config.csumBase]
  | succ k ih => simp only [Config.csumBase]; omega

/-- A later engine lies behind the words of an earlier one. -/
theorem Config.csumBase_add_le {j k : Nat} (h : j < k) :
    Config.csumBase j + 16 ≤ Config.csumBase k := by
  induction k with
  | zero => omega
  | succ k ih =>
    simp only [Config.csumBase]
    rcases Nat.lt_succ_iff_lt_or_eq.1 h with h | rfl
    · have := ih h
      omega
    · omega

namespace Machine

/-- What an access to the bridge of an engine can be answered, by the first fault it has. -/
theorem bridgeSelect_cases (base addr size : Nat) :
    ((addr < base ∨ base + 16 ≤ addr) ∧ bridgeSelect base addr size = .error .notThisEngine) ∨
    (base ≤ addr ∧ addr < base + 16 ∧
      ((size ≠ 4 ∧ bridgeSelect base addr size = .error .notOneWord) ∨
       (size = 4 ∧ addr % 4 ≠ 0 ∧ bridgeSelect base addr size = .error .misaligned) ∨
       (size = 4 ∧ addr % 4 = 0 ∧
        bridgeSelect base addr size = .ok (BitVec.ofNat 2 ((addr - base) / 4))))) := by
  unfold bridgeSelect
  split
  · exact .inl ⟨‹_›, rfl⟩
  · refine .inr ⟨by omega, by omega, ?_⟩
    split
    · exact .inl ⟨‹_›, rfl⟩
    · split
      · exact .inr (.inl ⟨by omega, ‹_›, rfl⟩)
      · exact .inr (.inr ⟨by omega, by omega, rfl⟩)

/-- Among engines behind which an address lies, routing passes over those it does not belong to. -/
theorem routeAmong_of_engine {n k addr size : Nat} (h : k < n) (lo : Config.csumBase k ≤ addr)
    (hi : addr < Config.csumBase k + 16) :
    routeAmong n addr size = (bridgeSelect (Config.csumBase k) addr size).map (k, ·) := by
  induction n with
  | zero => omega
  | succ n ih =>
    rw [routeAmong]
    rcases Nat.lt_succ_iff_lt_or_eq.1 h with h | rfl
    · have := Config.csumBase_add_le h
      rcases bridgeSelect_cases (Config.csumBase n) addr size with ⟨_, hb⟩ | ⟨hb, _⟩
      · rw [hb]
        exact ih h
      · omega
    · rcases bridgeSelect_cases (Config.csumBase k) addr size with
        ⟨ho, _⟩ | ⟨_, _, ⟨_, hb⟩ | ⟨_, _, hb⟩ | ⟨_, _, hb⟩⟩
      · omega
      all_goals rw [hb]; rfl

/-- An access that routing sends somewhere was selected by the bridge of that engine. -/
theorem routeAmong_ok {n addr size k : Nat} {a : RegIndex} (h : routeAmong n addr size = .ok (k, a)) :
    k < n ∧ bridgeSelect (Config.csumBase k) addr size = .ok a := by
  induction n with
  | zero => cases h
  | succ n ih =>
    rw [routeAmong] at h
    split at h
    · cases h
      exact ⟨by omega, ‹_›⟩
    · have := ih h
      exact ⟨by omega, this.2⟩
    all_goals cases h

/-- The word address of a register of an engine is routed to it. -/
theorem route_of_busAddress {k addr : Nat} {a : RegIndex} (h : k < Config.engineCount)
    (ha : addr = busAddress (Config.csumBase k) a) : route addr 4 = .ok (k, a) := by
  have hl := a.isLt
  have hb := Config.csumBase_aligned k
  simp only [busAddress] at ha
  rw [route, routeAmong_of_engine h (by omega) (by omega)]
  rcases bridgeSelect_cases (Config.csumBase k) addr 4 with ⟨_, _⟩ | ⟨_, _, ⟨_, _⟩ | ⟨_, _, _⟩ | ⟨_, _, hs⟩⟩
  · omega
  · omega
  · omega
  · rw [hs, show (addr - Config.csumBase k) / 4 = a.toNat by omega]
    simp [Except.map]

@[simp] theorem System.issueTo_length (y : System) (k : Nat) (c : BusCycle) :
    (y.issueTo k c).engines.length = y.engines.length := by
  simp [System.issueTo]

/-- A cycle issued to one engine joins that engine's list and leaves every other engine as it was. -/
theorem System.issueTo_getElem? (y : System) (k j : Nat) (c : BusCycle) :
    (y.issueTo k c).engines[j]? =
      if j = k then (y.engines[j]?).map (State.issueLast c) else y.engines[j]? := by
  simp only [System.issueTo, List.getElem?_modify]
  split <;> split <;> simp_all

end Machine

end Sys2Proof
end

