-- ==== Sys2Proof/Tests/Slice0.lean ====
section
/-! SUPPORT. Tests and witnesses. Expected results come from spec/95_test_vectors.md (named by their ids),
from the examples of the rules, or from the encoding tables, written out by hand. The witnesses show, for
every statement with hypotheses, concrete values that meet them, one for each clause. -/

namespace Sys2Proof.Tests

open Sys2Proof.Machine

/-- The next state, if there is one. -/
def nextState : Host.Outcome State Fault Refusal → Option State
  | .next s => some s
  | .fault _ => none
  | .refused _ => none

/-- The state after reset with the given ACC and PHASE. -/
def stateAt (acc : Half) (phase : Bool) : State :=
  { State.reset with regs := { Regs.reset with acc := acc, phase := phase } }

/-- The state after reset with the given cycles to come. -/
def stateWith (cs : List BusCycle) : State := State.reset.withCycles cs

/-- ACC, PHASE, RESULT and the STATUS word after an instruction, as 95_test_vectors.md writes a state. -/
def after (i : Instr) (s : State) : Option (Half × Bool × Half × Word) :=
  (nextState (exec i s)).map fun t => (t.regs.acc, t.regs.phase, t.regs.result, t.regs.statusWord)

/-! ### WellFormed: an ill-formed term for each check, refused -/

theorem test_wf_low_row_refuses_5 : (Instr.illegalLow 0x5#4).wf = false := by decide
theorem test_wf_low_row_refuses_8 : (Instr.illegalLow 0x8#4).wf = false := by decide
theorem test_wf_high_row_refuses_7 : (Instr.illegalHigh 0x7#4).wf = false := by decide
theorem test_wf_rows_take_their_own :
    (Instr.illegalLow 0x6#4).wf && (Instr.illegalLow 0x7#4).wf && (Instr.illegalHigh 0x8#4).wf
      && (Instr.illegalHigh 0xF#4).wf = true := by decide

/-! ### Decoding: a word of every row, written out from the encoding tables (R43, R46; the table's
encoding column), with ignored bits set where the rule says they are ignored -/

theorem test_decode_nop : decodeTableWord 32 0b00001010101111000001001000110100 = some .nop := by decide
theorem test_decode_clr : decodeTableWord 32 0b00010000000000000000000000000000 = some .clr := by decide
theorem test_decode_pushb :
    decodeTableWord 32 0b00101111111111111010101100010010 = some (.pushb 0x12#8) := by decide
theorem test_decode_pushw :
    decodeTableWord 32 0b00110000000000000011010001010110 = some (.pushw 0x3456#16) := by decide
theorem test_decode_final : decodeTableWord 32 0b01000000000000000000000000000000 = some .final := by decide
theorem test_decode_verify :
    decodeTableWord 32 0b01010000000000000010001000001101 = some (.verify 0x220D#16) := by decide
theorem test_decode_illegal_low :
    decodeTableWord 32 0b01100000000000000000000000000000 = some (.illegalLow 0b0110#4) ∧
    decodeTableWord 32 0b01110000000000000000000000000000 = some (.illegalLow 0b0111#4) := by decide
theorem test_decode_illegal_high :
    decodeTableWord 32 0b10000000000000000000000000000000 = some (.illegalHigh 0b1000#4) ∧
    decodeTableWord 32 0b11110000000000000000000000000000 = some (.illegalHigh 0b1111#4) := by decide
theorem test_decode_rdCmd : decodeTableWord 8 0b000 = some .rdCmd := by decide
theorem test_decode_rdStatus : decodeTableWord 8 0b001 = some .rdStatus := by decide
theorem test_decode_rdAcc : decodeTableWord 8 0b010 = some .rdAcc := by decide
theorem test_decode_rdResult : decodeTableWord 8 0b011 = some .rdResult := by decide
theorem test_decode_wrCmd : decodeTableWord 8 0b100 = some (.wrCmd 0#32) := by decide
theorem test_decode_wrStatus : decodeTableWord 8 0b101 = some (.wrStatus 0#32) := by decide
theorem test_decode_wrAcc : decodeTableWord 8 0b110 = some (.wrAcc 0#32) := by decide
theorem test_decode_wrResult : decodeTableWord 8 0b111 = some (.wrResult 0#32) := by decide
theorem test_decode_wrAcc_data :
    decode [0x06#8, 0x34#8, 0x12#8, 0x00#8, 0x00#8] = .ok (.wrAcc 0x1234#32) := by rfl
theorem test_decode_refuses_head : decode [0x08#8] = .error .headReserved := by rfl
theorem test_decode_refuses_length : decode [0x00#8, 0x00#8] = .error .frameLength := by rfl
theorem test_decode_refuses_bare_write : decode [0x06#8] = .error .writeWithoutData := by rfl
theorem test_decode_refuses_read_with_data :
    decode [0x02#8, 0x00#8, 0x00#8, 0x00#8, 0x00#8] = .error .readWithData := by rfl

/-! ### The instructions (vectors V-A, V-R, V-C) -/

theorem test_pushb_high_V_A1 :
    after (.pushb 0x12#8) State.reset = some (0x1200#16, true, 0x0000#16, 0x01#32) := by decide
theorem test_pushb_carry_V_A6 :
    after (.pushb 0x80#8) (stateAt 0x8000#16 false) = some (0x0001#16, true, 0x0000#16, 0x01#32) := by
  decide
theorem test_pushw_swapped_V_A3 :
    after (.pushw 0x3456#16) (stateAt 0x1200#16 true) = some (0x6834#16, true, 0x0000#16, 0x01#32) := by
  decide
theorem test_pushw_carry_V_A5 :
    after (.pushw 0x0001#16) (stateAt 0xFFFF#16 false) = some (0x0001#16, false, 0x0000#16, 0x00#32) := by
  decide
theorem test_pushb_keeps_result_V_A9 :
    after (.pushb 0x34#8)
        { State.reset with regs :=
            { Regs.reset with acc := 0x1200#16, phase := true, result := 0xEDFF#16, done := true } } =
      some (0x1234#16, false, 0xEDFF#16, 0x00#32) := by decide
theorem test_final_odd_V_R2 :
    after .final (stateAt 0x6834#16 true) = some (0x6834#16, true, 0x97CB#16, 0x03#32) := by decide
theorem test_verify_mismatch_V_R4 :
    after (.verify 0xFFFF#16) (stateAt 0xFFFF#16 false) = some (0xFFFF#16, false, 0x0000#16, 0x06#32) := by
  decide
theorem test_verify_match_V_R6 :
    after (.verify 0x220D#16) (stateAt 0xDDF2#16 false) = some (0xDDF2#16, false, 0x220D#16, 0x0E#32) := by
  decide
theorem test_clr_V_C3 :
    after .clr
        { State.reset with regs :=
            { Regs.reset with acc := 0x6834#16, phase := true, done := true, err := true, ecause := 1#2 } } =
      some (0x0000#16, false, 0x0000#16, 0x00#32) := by decide
theorem test_nop_V_C1 : after .nop (stateAt 0x6834#16 true) = some (0x6834#16, true, 0x0000#16, 0x01#32) := by
  decide
theorem test_illegal_low_V_C7 :
    after (.illegalLow 0x6#4)
        { State.reset with regs := { Regs.reset with err := true, ecause := 0b10#2 } } =
      some (0x0000#16, false, 0x0000#16, 0x50#32) := by decide
theorem test_illegal_high_V_C4 :
    after (.illegalHigh 0xF#4) State.reset = some (0x0000#16, false, 0x0000#16, 0x30#32) := by decide
theorem test_wrStatus_V_C7 :
    after (.wrStatus 0xFFFFFFFF#32) State.reset = some (0x0000#16, false, 0x0000#16, 0x50#32) := by decide
theorem test_wrAcc_V_C6 :
    after (.wrAcc 0x1234#32) State.reset = some (0x0000#16, false, 0x0000#16, 0x50#32) := by decide
theorem test_wrResult_keeps_first_cause_P3 :
    after (.wrResult 0#32) { State.reset with regs := { Regs.reset with err := true, ecause := 1#2 } } =
      some (0x0000#16, false, 0x0000#16, 0x30#32) := by decide
theorem test_wrCmd_V_A7 :
    after (.wrCmd 0x2FFFAB12#32) State.reset = some (0x1200#16, true, 0x0000#16, 0x01#32) := by decide

/-- The state after V-R2, for V-C9. -/
def afterVR2 : State :=
  { State.reset with regs :=
      { Regs.reset with acc := 0x6834#16, phase := true, result := 0x97CB#16, done := true } }

theorem test_reads_V_C8_V_C9 :
    (nextState (exec .rdCmd afterVR2)).map State.rdata = some (some 0x00000000#32) ∧
    (nextState (exec .rdAcc afterVR2)).map State.rdata = some (some 0x00006834#32) ∧
    (nextState (exec .rdResult afterVR2)).map State.rdata = some (some 0x000097CB#32) ∧
    (nextState (exec .rdStatus afterVR2)).map State.rdata = some (some 0x00000003#32) := by decide

/-! ### The reference functions (vectors V-F) and the step -/

theorem test_compute_V_F7 :
    compute [0x00#8, 0x01#8, 0xF2#8, 0x03#8, 0xF4#8, 0xF5#8, 0xF6#8, 0xF7#8] = 0x220D#16 := by decide
theorem test_compute_odd_V_F8 : compute [0x12#8, 0x34#8, 0x56#8] = 0x97CB#16 := by decide
theorem test_compute_carry_V_F9 : compute [0x80#8, 0x00#8, 0x80#8, 0x00#8] = 0xFFFE#16 := by decide
theorem test_ocadd16_table :
    ocadd16 0xFFFE#16 0x0001#16 = 0xFFFF#16 ∧ ocadd16 0xFFFE#16 0x0002#16 = 0x0001#16 ∧
    ocadd16 0x1200#16 0x5634#16 = 0x6834#16 := by decide

theorem test_step_runs_fetched_word :
    (nextState (step (State.reset.withFetchWord 32 0x30003456))).map (fun t => t.regs.acc) =
      some 0x3456#16 := by decide
theorem test_step_runs_fetched_read :
    (nextState (step (afterVR2.withFetchWord 8 0b011))).map State.rdata = some (some 0x000097CB#32) := by
  decide
/-- R82: a reset in the instant of a write wins. -/
theorem test_reset_beats_write :
    (nextState (step { afterVR2 with queue := [{ reset := true, txn := some (.write 0#2 0x200000AA#32) }] })).map
      State.regs = some Regs.reset := by decide

/-! ### The assembler (R46, R47) -/

theorem test_text_pushb :
    assembleText ['P', 'U', 'S', 'H', 'B', ' ', '0', 'x', '1', '2', ' ', ';', ' ', 'a'] =
      .ok [.write 0#2 0x20000012#32] := by rfl
theorem test_text_wr :
    assembleText ['W', 'R', ' ', 'A', 'C', 'C', ',', ' ', '0', 'x', '1', '2', '3', '4'] =
      .ok [.write 2#2 0x1234#32] := by rfl
theorem test_text_decimal_out_of_range :
    assembleText ['P', 'U', 'S', 'H', 'B', ' ', '2', '5', '6'] = .error .immediateOutOfRange := by rfl
theorem test_text_csum :
    assembleText ['C', 'S', 'U', 'M', ' ', '1', ',', '2', ',', '3'] =
      .ok [.write 0#2 0x10000000#32, .write 0#2 0x30000102#32, .write 0#2 0x20000003#32,
        .write 0#2 0x40000000#32] := by rfl
theorem test_text_check_empty :
    assembleText ['C', 'H', 'E', 'C', 'K', ' ', '0', 'x', 'F', 'F', 'F', 'F'] =
      .ok [.write 0#2 0x10000000#32, .write 0#2 0x5000FFFF#32] := by rfl
theorem test_text_no_WR_CMD :
    assembleText ['W', 'R', ' ', 'C', 'M', 'D', ',', ' ', '0'] = .error .notAStatement := by rfl

/-! ### Witnesses: values that meet the hypotheses of the statements -/

theorem start_holds : Holds History.start Regs.reset :=
  { acc := by decide, phase := by decide, result := by decide, verdict := by decide }

theorem reset_regs_ok : Regs.reset.Ok :=
  { noCause := by decide, cause := by decide, verdict := by decide, mvalidDone := by decide,
    doneResult := by decide }

theorem reset_ok : State.reset.Ok := { regs := reset_regs_ok, inReset := by decide }

/-- Reset deasserted, which every statement of an instruction's result asks. -/
theorem witness_running : State.reset.resetIn = false ∧ State.reset.regs.ecause ≠ 0b11#2 := by decide

theorem witness_ResetAndClrGiveTheSameState :
    State.reset.resetIn = false ∧
    ∃ s : State, s.view.ecause ≠ 0b11#2 ∧ s.queue = [{ reset := true, txn := none }] :=
  ⟨rfl, { afterVR2 with queue := [{ reset := true, txn := none }] }, by decide, rfl⟩

/-- A state in reset or not, with one cycle to take. -/
def oneCycle (inReset : Bool) (c : BusCycle) : State :=
  { afterVR2 with resetIn := inReset, queue := [c] }

theorem witness_ResetInputDominates :
    (oneCycle false ⟨true, some (.write 3#2 0#32)⟩).view.ecause ≠ 0b11#2 ∧
    (oneCycle false ⟨true, some (.read 3#2)⟩).view.ecause ≠ 0b11#2 ∧
    (oneCycle true ⟨false, none⟩).view.ecause ≠ 0b11#2 ∧
    (oneCycle true ⟨false, some (.read 0#2)⟩).view.ecause ≠ 0b11#2 ∧
    (oneCycle true ⟨false, none⟩).resetIn = true ∧
    (oneCycle false ⟨true, none⟩).queue = [⟨true, none⟩] := by decide

theorem witness_PushbJoinsOneByte :
    (stateAt 0xFFFF#16 true).resetIn = false ∧ (0x2FFFFFFF#32).extractLsb' 28 4 = 0x2#4 := by decide
theorem witness_PushwJoinsTwoBytes :
    (stateAt 0xFFFF#16 true).resetIn = false ∧ (0x3FFFFFFF#32).extractLsb' 28 4 = 0x3#4 := by decide
theorem witness_FinalLatchesTheCode :
    afterVR2.resetIn = false ∧ (0x4FFFFFFF#32).extractLsb' 28 4 = 0x4#4 := by decide
theorem witness_VerifyComparesTheCode :
    afterVR2.resetIn = false ∧ (0x5FFFFFFF#32).extractLsb' 28 4 = 0x5#4 := by decide
theorem witness_NopChangesNothing : (0x0FFFFFFF#32).extractLsb' 28 4 = 0x0#4 := by decide
theorem witness_ClrStartsANewPayload :
    afterVR2.resetIn = false ∧ (0x1FFFFFFF#32).extractLsb' 28 4 = 0x1#4 ∧
    ∃ s t : State, s.regs.err = true ∧ exec .clr s = .next t ∧ t.regs.err = false :=
  ⟨rfl, by decide, { State.reset with regs := { Regs.reset with err := true, ecause := 1#2 } }, _, rfl, rfl,
    rfl⟩
theorem witness_IllegalOnlyRaisesItsError :
    afterVR2.resetIn = false ∧ 0x60000000#32 &&& 0xE0000000#32 = 0x60000000#32 ∧
    0x7FFFFFFF#32 &&& 0xE0000000#32 = 0x60000000#32 ∧
    0x80000000#32 &&& 0x80000000#32 = 0x80000000#32 ∧
    0xFFFFFFFF#32 &&& 0x80000000#32 = 0x80000000#32 := by decide
theorem witness_ReadOnlyWriteOnlyRaisesItsError :
    ∃ (i : Instr) (d : Word) (s : State),
      (i = .wrStatus d ∨ i = .wrAcc d ∨ i = .wrResult d) ∧ s.resetIn = false :=
  ⟨.wrResult 0xFFFFFFFF#32, 0xFFFFFFFF#32, afterVR2, .inr (.inr rfl), rfl⟩
theorem witness_ReadStatusReturnsTheFlags : afterVR2.resetIn = false := rfl
theorem witness_ReadAccAndResult : (stateAt 0xFFFF#16 true).resetIn = false := rfl
theorem witness_BusWriteByIndex :
    (oneCycle true ⟨true, none⟩).resetIn = true ∧ State.reset.resetIn = false ∧
    (1#2 : RegIndex) ≠ 0#2 ∧ (3#2 : RegIndex) ≠ 0#2 := by decide
theorem witness_BusReadByIndex :
    afterVR2.resetIn = false ∧
    decodeTxn (.read 0#2) = .rdCmd ∧ decodeTxn (.read 3#2) = .rdResult := by decide
theorem witness_EveryRegisterBitIsReadable :
    afterVR2.resetIn = false ∧ ({ afterVR2 with rdata := some 0#32 } : State).resetIn = false ∧
    ∀ a : RegIndex, ∀ t t', exec (decodeTxn (.read a)) afterVR2 = .next t →
      exec (decodeTxn (.read a)) { afterVR2 with rdata := some 0#32 } = .next t' → t.rdata = t'.rdata := by
  refine ⟨rfl, rfl, ?_⟩
  intro a t t' h h'
  simp only [decodeTxn] at h h'
  cases hb : BusReg.ofIndex a <;> rw [hb] at h h' <;> cases h <;> cases h' <;> rfl
theorem witness_FirstErrorCauseIsKept :
    ∃ s u : State, s.resetIn = false ∧ u.resetIn = false ∧ s.regs.err = false ∧ u.regs.err = true ∧
      (Instr.wrCmd 0xF0000000#32).carries Command.isIllegal = true ∧
      (Instr.wrStatus 0#32).writesReadOnly = true :=
  ⟨State.reset, { State.reset with regs := { Regs.reset with err := true, ecause := 1#2 } }, rfl, rfl, rfl,
    rfl, by decide, rfl⟩
theorem witness_ErrorCausesAndNoOthers :
    State.reset.resetIn = false ∧ State.reset.regs.err = false ∧ State.reset.regs.ecause = 0b00#2 ∧
    (Instr.wrCmd 0x60000000#32).carries Command.isIllegal = true ∧
    (Instr.wrCmd 0x5FFFFFFF#32).carries Command.isIllegal = false ∧
    (Instr.wrAcc 0#32).writesReadOnly = true ∧
    (nextState (exec (.wrCmd 0x60000000#32) State.reset)).isSome = true := by decide
theorem witness_RecordedErrorStaysUntilClr :
    ∃ s : State, s.regs.err = true ∧ (Instr.wrAcc 0#32).command? ≠ some .clr :=
  ⟨{ State.reset with regs := { Regs.reset with err := true, ecause := 1#2 } }, rfl, by decide⟩

/-- Each clause's premise is met by some instruction and state. -/
theorem witness_RegistersChangeOnlyUnderTheirCommands :
    (∃ t, exec (.pushb 0xFF#8) State.reset = .next t ∧ t.regs.acc ≠ State.reset.regs.acc ∧
      t.regs.phase ≠ State.reset.regs.phase) ∧
    (∃ t, exec .final State.reset = .next t ∧ t.regs.result ≠ State.reset.regs.result ∧
      t.regs.done ≠ State.reset.regs.done) ∧
    (∃ t, exec (.verify 0xFFFF#16) State.reset = .next t ∧
      t.regs.mvalid ≠ State.reset.regs.mvalid ∧ t.regs.matched ≠ State.reset.regs.matched) ∧
    (∃ t, exec (.wrAcc 0#32) State.reset = .next t ∧ t.regs.err ≠ State.reset.regs.err ∧
      t.regs.ecause ≠ State.reset.regs.ecause) ∧
    (∃ t, exec .rdCmd State.reset = .next t ∧ t.rdata ≠ State.reset.rdata) :=
  ⟨⟨_, rfl, by decide, by decide⟩, ⟨_, rfl, by decide, by decide⟩, ⟨_, rfl, by decide, by decide⟩,
    ⟨_, rfl, by decide, by decide⟩, ⟨_, rfl, by decide⟩⟩

theorem witness_VerdictFlagRules :
    (Instr.wrCmd 0x40000000#32).command? = some .final ∧
    (Instr.wrCmd 0x5000FFFF#32).command? = some (.verify 0xFFFF#16) ∧
    (Instr.pushw 0xFFFF#16).carries Command.isPush = true ∧
    (Instr.wrCmd 0x10000000#32).command? = some .clr ∧
    Instr.nop.carries Command.isPush = false ∧ Instr.nop.carries Command.isResult = false ∧
    Instr.nop.command? ≠ some .clr := by decide
theorem witness_IdempotentTransactions :
    (Instr.wrResult 0#32).carries Command.isPush = false ∧
    (Instr.verify 0#16).carries Command.isPush = false := by decide
theorem witness_DecoderByOpcode :
    (0x00000000#32).extractLsb' 28 4 = 0x0#4 ∧ (0x1FFFFFFF#32).extractLsb' 28 4 = 0x1#4 ∧
    (0x20000000#32).extractLsb' 28 4 = 0x2#4 ∧ (0x3FFFFFFF#32).extractLsb' 28 4 = 0x3#4 ∧
    (0x40000000#32).extractLsb' 28 4 = 0x4#4 ∧ (0x5FFFFFFF#32).extractLsb' 28 4 = 0x5#4 ∧
    (0x60000000#32).extractLsb' 28 4 = 0x6#4 ∧ (0x7FFFFFFF#32).extractLsb' 28 4 = 0x7#4 ∧
    0x8#4 ≤ (0x80000000#32).extractLsb' 28 4 ∧ 0x8#4 ≤ (0xFFFFFFFF#32).extractLsb' 28 4 := by decide
theorem witness_IgnoredBitsAreIgnored :
    0x2FFFAB12#32 &&& (decodeCommand 0x2FFFAB12#32).usedBits =
      0x20000012#32 &&& (decodeCommand 0x2FFFAB12#32).usedBits := by decide
theorem witness_OpcodeRowsPartitionTheWords :
    (⟨0x80000000#32, 0x80000000#32⟩ : OpcodeRow) ∈ opcodeMap := by decide
theorem witness_DecodeOfEncode :
    (Instr.illegalHigh 0xF#4).wf = true ∧ (Instr.pushw 0xFFFF#16).wf = true := by decide
theorem witness_DecoderAcceptsOnlyFrames :
    decode [0x03#8] = .ok .rdResult ∧ decode [0xFF#8, 0xFF#8, 0xFF#8, 0xFF#8] = .ok (.illegalHigh 0xF#4) ∧
    decode [0x04#8, 0#8, 0#8, 0#8, 0#8] = .ok (.wrCmd 0#32) := ⟨rfl, rfl, rfl⟩
theorem witness_AssemblerWordsAndRanges :
    255 ≤ 255 ∧ 65535 ≤ 65535 ∧ 2 ^ 32 - 1 < 2 ^ 32 ∧ 255 < 256 ∧ 65535 < 65536 ∧ 2 ^ 32 ≤ 2 ^ 32 := by
  decide
theorem witness_PayloadWordsAreBigEndianAndPadded :
    2 * 0 + 1 < [0x12#8, 0x34#8].length ∧ [0x12#8].length % 2 = 1 := by decide
theorem witness_FoldIsTheEndAroundCarryLoop :
    0xFFFF < 0x10000 ∧ 0x10000 ≤ 0x10000 ∧ 0 < 1 ∧ (List.replicate 512 0xFF#8).length ≤ 512 :=
  ⟨by decide, by decide, by decide, le_of_eq List.length_replicate⟩
theorem witness_FoldClosedForm : 0 < 1 ∧ fold 1 = 1 ∧ fold 0xFFFF = 0xFFFF ∧ fold 0x10000 = 1 := by decide
theorem witness_SpecialCodes :
    (0x0001#16 : Half) ≠ 0x0000#16 ∧ (0xFFFE#16 : Half) ≠ 0xFFFF#16 ∧
    compute [0x12#8] ≠ 0x0000#16 ∧ compute [0x12#8] ≠ 0xFFFF#16 := by decide
theorem witness_ByteIncrementIsDetected : 1 < [0x00#8, 0xFF#8].length := by decide
theorem witness_BitFlipIsDetected : 0 < [0x00#8].length ∧ 7 < 8 := by decide
/-- V-D5, V-D6 and a compensating change. -/
theorem witness_BlindSpots :
    wordsOf [0x12#8, 0x34#8, 0x56#8, 0x78#8] = [0x1234#16, 0x5678#16] ∧
    wordsOf [0x56#8, 0x78#8, 0x12#8, 0x34#8] = [0x5678#16, 0x1234#16] ∧
    0 < wordSum [0x00#8, 0x01#8, 0x00#8, 0x00#8] ∧
    wordSum [0x00#8, 0x01#8, 0x00#8, 0x00#8] % 0xFFFF = wordSum [0x00#8, 0x01#8, 0xFF#8, 0xFF#8] % 0xFFFF ∧
    wordSum [0x00#8, 0x01#8, 0x00#8, 0x02#8] = wordSum [0x00#8, 0x02#8, 0x00#8, 0x01#8] := by decide
theorem witness_StepRunsTheNextTransaction :
    ∃ (s : State) (t : Txn) (rest : List BusCycle), s.resetIn = false ∧ s.regs.ecause ≠ 0b11#2 ∧
      s.queue = { reset := false, txn := some t } :: rest :=
  ⟨oneCycle false ⟨false, some (.read 1#2)⟩, _, _, rfl, by decide, rfl⟩
theorem witness_IssuedCommandWordRuns : afterVR2.resetIn = false ∧ afterVR2.regs.ecause ≠ 0b11#2 := by decide
theorem witness_OnlyWritesAndResetChangeRegisters :
    (∃ t, step (oneCycle false ⟨false, some (.write 0#2 0x200000FF#32)⟩) = .next t ∧
      t.view ≠ (oneCycle false ⟨false, some (.write 0#2 0x200000FF#32)⟩).view) ∧
    (∃ t, step (oneCycle false ⟨true, none⟩) = .next t ∧ t.view ≠ (oneCycle false ⟨true, none⟩).view) ∧
    State.reset.view.ecause ≠ 0b11#2 ∧ State.reset.queue = [] :=
  ⟨⟨_, rfl, by decide⟩, ⟨_, rfl, by decide⟩, by decide, rfl⟩
theorem witness_ReadAfterWrite :
    (∃ t, exec (decodeTxn (.write 0#2 0x40000000#32)) afterVR2 = .next t) ∧
    State.reset.resetIn = false ∧ Holds History.start State.reset.regs :=
  ⟨⟨_, rfl⟩, rfl, start_holds⟩
theorem witness_EveryStepKeepsTheInvariant : ∃ t, State.reset.Ok ∧ step State.reset = .next t :=
  ⟨_, reset_ok, rfl⟩
theorem witness_OnlyTheReservedCauseFaults :
    ({ State.reset with regs := { Regs.reset with err := true, ecause := 0b11#2 } } : State).view.ecause =
      0b11#2 ∧ State.reset.view.ecause ≠ 0b11#2 ∧ State.reset.Ok :=
  ⟨rfl, by decide, reset_ok⟩
theorem witness_EveryStepKeepsTheHistory :
    (∃ t, Holds History.start State.reset.view ∧ step State.reset = .next t ∧ State.reset.queue = []) ∧
    (∃ t c rest, Holds History.start (stateWith [cycleOf (.pushb 0x12#8)]).view ∧
      step (stateWith [cycleOf (.pushb 0x12#8)]) = .next t ∧
      (stateWith [cycleOf (.pushb 0x12#8)]).queue = c :: rest) :=
  ⟨⟨_, start_holds, rfl, rfl⟩, ⟨_, _, _, start_holds, rfl, rfl⟩⟩
theorem witness_RunningCodeIsTheCode : Holds History.start Regs.reset := start_holds
theorem witness_CsumComputesTheCode : afterVR2.resetIn = false := rfl
theorem witness_CheckVerifiesThePayload : afterVR2.resetIn = false := rfl
theorem witness_MissingClrConcatenates : afterVR2.resetIn = false := rfl

/-- After VERIFY 0xFFFF on the empty payload (V-R3): both observations are to be had. -/
def afterVR3 : Regs :=
  { Regs.reset with result := 0xFFFF#16, done := true, mvalid := true, matched := true }

theorem witness_ObservationIsTheReferenceValue :
    Holds { pushed := [], expected := some 0xFFFF#16 } afterVR3 ∧
    observation .rdResult afterVR3 0x0000FFFF#32 = some (.code 0xFFFF#16) ∧
    observation .rdStatus afterVR3 0x0000000E#32 = some (.verdict true) :=
  ⟨{ acc := by decide, phase := by decide, result := by decide,
     verdict := fun _ => ⟨0xFFFF#16, rfl, by decide⟩ }, by decide, by decide⟩

/-- A computation in progress after VERIFY 0xFFFF, and its two ends; the third is a transaction that ends
none. -/
theorem witness_Computation_inProgress :
    let k : Computation := { txns := [.write 0#2 0x5000FFFF#32], observed := none }
    let s (a : RegIndex) : State := { State.reset with regs := afterVR3, queue := [⟨false, some (.read a)⟩] }
    k.Correct ∧ Holds k.history afterVR3 ∧ (∃ t, step (s 3#2) = .next t) ∧ (∃ t, step (s 1#2) = .next t) ∧
      (∃ t, step (s 2#2) = .next t) :=
  ⟨{ code := fun _ h => (by cases h), verdict := fun _ h => (by cases h) },
    { acc := by decide, phase := by decide, result := by decide,
      verdict := fun _ => ⟨0xFFFF#16, rfl, by decide⟩ },
    ⟨_, rfl⟩, ⟨_, rfl⟩, ⟨_, rfl⟩⟩

/-- A computation that has ended, and a push after it. -/
theorem witness_Computation_ended :
    ({ txns := [], observed := some (.code 0xFFFF#16) } : Computation).observed ≠ none ∧
    (decodeTxn (.write 0#2 0x200000AB#32)).command? ≠ some .clr := by decide

/-- The transactions CLR; FINAL; RD RESULT; PUSHB 0x12; FINAL; RD RESULT: the computation ends at the first
read (R38), with the code of the empty payload (V-F1), and the second read is in none. -/
theorem test_computation_ends_at_first_read :
    (Computation.after 6
        (stateWith ([.clr, .final, .rdResult, .pushb 0x12#8, .final, .rdResult].map cycleOf))
        Computation.start) =
      { txns := [.write 0#2 0x10000000#32, .write 0#2 0x40000000#32, .read 3#2],
        observed := some (.code 0xFFFF#16) } := by decide

/-- A computation that never reads the result has no observation (R38). -/
theorem test_computation_without_read :
    (Computation.after 3 (stateWith ([.clr, .pushb 0x12#8, .final].map cycleOf)) Computation.start).observed =
      none := by decide
theorem witness_TwoMastersWordsJoinOneSum :
    Interleaving [0x0001#16, 0x0002#16] [0xFFFF#16] [0x0001#16, 0xFFFF#16, (0x0002#16 : Half)] :=
  .first (.second (.first .done))
theorem witness_EnginesAreIndependent :
    (∃ y', (System.mk [State.reset, afterVR2]).stepEngine 1 = some (.next y')) ∧
    (System.mk [State.reset, afterVR2]).engines[1]? = some afterVR2 ∧
    System.reset.engines[0]? = some State.reset ∧ System.reset.wf = true ∧
    route (Config.csumBase 0) 4 = .ok (0, 0#2) ∧ (0 : Nat) < 1 :=
  ⟨⟨_, rfl⟩, rfl, by simp [System.reset, Config.engineCount, List.replicate_succ],
    by simp [System.wf, System.reset],
    route_of_busAddress (a := 0#2) (by simp [Config.engineCount]) (by simp [busAddress]), by decide⟩
theorem witness_BridgeSelectsWholeWordsOnly :
    bridgeSelect (Config.csumBase 1) (Config.csumBase 1 + 12) 4 = .ok 3#2 ∧
    Config.csumBase 1 - 1 < Config.csumBase 1 ∧ Config.csumBase 1 + 16 ≤ Config.csumBase 1 + 16 ∧
    Config.csumBase 1 + 15 < Config.csumBase 1 + 16 ∧ 1 ≠ 4 ∧ (Config.csumBase 1 + 15) % 4 ≠ 0 := by
  have h := Config.csumBase_aligned 1
  have h16 : 16 ≤ Config.csumBase 1 := by simp only [Config.csumBase]; omega
  refine ⟨?_, by omega, by omega, by omega, by decide, by omega⟩
  unfold bridgeSelect
  rw [if_neg (by omega), if_neg (by omega), if_neg (by omega)]
  simp

end Sys2Proof.Tests
end

section
/-! SUPPORT. Proofs of the statements on the scope (00_scope.md): what a step runs, what the bridge of a
byte-addressed system selects, and that the engines of a system are independent. -/

namespace Sys2Proof.Machine

/-! ### Steps -/

/-- With reset deasserted before and in a bus cycle, taking the cycle only shortens the queue. -/
theorem State.takeCycle_of_running {s : State} (h : s.resetIn = false) (x : Option Txn)
    (rest : List BusCycle) :
    s.takeCycle { reset := false, txn := x } rest = { s with queue := rest } := by
  simp [State.takeCycle, State.sampleReset, State.view, h]

/-- A step from a state without the reserved cause runs the transaction of the cycle it takes. -/
theorem step_of_txn {s : State} {c : BusCycle} {rest : List BusCycle} {t : Txn}
    (hc : s.view.ecause ≠ causeReserved) (hq : s.queue = c :: rest) (ht : c.txn = some t) :
    step s = exec (decodeTxn t) (s.takeCycle c rest) := by
  rcases step_inversion s with
    ⟨hr, _⟩ | ⟨_, ⟨hnil, _⟩ | ⟨c', rest', hq', ⟨hnone, _⟩ | ⟨t', ht', hstep⟩⟩⟩
  · exact absurd hr hc
  · simp [hq] at hnil
  · obtain ⟨rfl, rfl⟩ := List.cons.inj (hq.symm.trans hq')
    simp [ht] at hnone
  · obtain ⟨rfl, rfl⟩ := List.cons.inj (hq.symm.trans hq')
    obtain rfl := Option.some.inj (ht.symm.trans ht')
    exact hstep

/-! ### The bridge of one engine -/

theorem bridgeSelect_outside {base addr : Nat} (size : Nat) (h : addr < base ∨ base + 16 ≤ addr) :
    bridgeSelect base addr size = .error .notThisEngine := by
  rw [bridgeSelect, if_pos h]

theorem bridgeSelect_notOneWord {base addr size : Nat} (lo : base ≤ addr) (hi : addr < base + 16)
    (hs : size ≠ 4) : bridgeSelect base addr size = .error .notOneWord := by
  rw [bridgeSelect, if_neg (by omega), if_pos hs]

theorem bridgeSelect_misaligned {base addr : Nat} (lo : base ≤ addr) (hi : addr < base + 16)
    (ha : addr % 4 ≠ 0) : bridgeSelect base addr 4 = .error .misaligned := by
  rw [bridgeSelect, if_neg (by omega), if_neg (by decide), if_pos ha]

theorem bridgeSelect_busAddress {base : Nat} (hb : base % 4 = 0) (a : RegIndex) :
    bridgeSelect base (busAddress base a) 4 = .ok a := by
  have ha := a.isLt
  have haddr : busAddress base a = base + 4 * a.toNat := rfl
  have hoff : (busAddress base a - base) / 4 = a.toNat := by omega
  rw [bridgeSelect, if_neg (by omega), if_neg (by decide), if_neg (by omega), hoff,
    BitVec.ofNat_toNat, BitVec.setWidth_eq]

/-- Only one aligned word at a register's byte address selects a register. -/
theorem bridgeSelect_ok {base addr size : Nat} {a : RegIndex} (hb : base % 4 = 0)
    (h : bridgeSelect base addr size = .ok a) : size = 4 ∧ addr = busAddress base a := by
  rcases bridgeSelect_cases base addr size with
    ⟨_, he⟩ | ⟨lo, hi, ⟨_, he⟩ | ⟨_, _, he⟩ | ⟨hs, halign, hok⟩⟩
  · simp [he] at h
  · simp [he] at h
  · simp [he] at h
  · obtain rfl := Except.ok.inj (hok.symm.trans h)
    refine ⟨hs, ?_⟩
    simp only [busAddress, BitVec.toNat_ofNat]
    omega

theorem csumBase_wordAligned (k : Nat) : Config.csumBase k % 4 = 0 := by
  have := Config.csumBase_aligned k
  omega

/-! ### The engines of a system -/

theorem System.stepEngine_next {y y' : System} {k : Nat} (h : y.stepEngine k = some (.next y')) :
    ∃ s t, y.engines[k]? = some s ∧ step s = .next t ∧ y'.engines = y.engines.set k t := by
  unfold System.stepEngine at h
  split at h
  · cases h
  · next s hs =>
    split at h
    · next t ht =>
      cases h
      exact ⟨s, t, hs, ht, rfl⟩
    all_goals cases h

/-- A step of engine `k` is the step of that engine alone. -/
theorem System.stepEngine_frame {y y' : System} {k : Nat} (h : y.stepEngine k = some (.next y')) :
    y'.engines.length = y.engines.length ∧
    (∃ s t, y.engines[k]? = some s ∧ step s = .next t ∧ y'.engines[k]? = some t) ∧
    ∀ j, j ≠ k → y'.engines[j]? = y.engines[j]? := by
  obtain ⟨s, t, hs, ht, hy⟩ := System.stepEngine_next h
  obtain ⟨hk, _⟩ := List.getElem?_eq_some_iff.1 hs
  rw [hy]
  exact ⟨List.length_set, ⟨s, t, hs, ht, List.getElem?_set_self hk⟩,
    fun j hj => List.getElem?_set_ne hj.symm⟩

theorem System.reset_wf : System.reset.wf = true := by
  simp [System.wf, System.reset]

theorem System.reset_engine {k : Nat} {s : State} (h : System.reset.engines[k]? = some s) :
    s = State.reset :=
  List.eq_of_mem_replicate (List.mem_of_getElem? h)

/-- Routing finds exactly the engine and the register whose byte address an access names. -/
theorem route_ok_iff (addr size k : Nat) (a : RegIndex) :
    route addr size = .ok (k, a) ↔
      k < Config.engineCount ∧ size = 4 ∧ addr = busAddress (Config.csumBase k) a := by
  constructor
  · intro h
    obtain ⟨hk, hsel⟩ := routeAmong_ok h
    exact ⟨hk, bridgeSelect_ok (csumBase_wordAligned k) hsel⟩
  · rintro ⟨hk, rfl, haddr⟩
    exact route_of_busAddress hk haddr

@[simp] theorem System.issueTo_wf (y : System) (k : Nat) (c : BusCycle) :
    (y.issueTo k c).wf = y.wf := by
  simp [System.wf]

theorem System.issueTo_getElem?_self {y : System} {k : Nat} {s : State}
    (h : y.engines[k]? = some s) (c : BusCycle) :
    (y.issueTo k c).engines[k]? = some (s.issueLast c) := by
  simp [System.issueTo_getElem?, h]

theorem System.issueTo_getElem?_ne (y : System) {k j : Nat} (h : j ≠ k) (c : BusCycle) :
    (y.issueTo k c).engines[j]? = y.engines[j]? := by
  simp [System.issueTo_getElem?, h]

theorem System.access_of_route {m : Access} {k : Nat} {a : RegIndex}
    (h : route m.addr m.size = .ok (k, a)) (y : System) :
    y.access m = .ok (y.issueTo k { reset := false, txn := some (m.txn a) }) := by
  simp [System.access, h]

/-- Every engine that an access is routed to is there. -/
theorem System.engine_of_route {y : System} {addr size k : Nat} {a : RegIndex} (hy : y.wf = true)
    (h : route addr size = .ok (k, a)) : ∃ s, y.engines[k]? = some s := by
  obtain ⟨hk, _⟩ := routeAmong_ok h
  have hlen : y.engines.length = Config.engineCount := by simpa [System.wf] using hy
  exact ⟨_, List.getElem?_eq_getElem (hlen ▸ hk)⟩

/-- Settles O59: each clause is a law of the system's operations. A step sets one engine, and an access
or a reset is a cycle issued to one. -/
theorem enginesAreIndependent : Obligations.EnginesAreIndependent := by
  refine ⟨fun _ _ _ => System.stepEngine_frame, System.reset_wf, Nat.succ_pos _,
    fun _ _ => System.reset_engine, fun _ _ => Config.csumBase_add_le, route_ok_iff, ?access, ?reset⟩
  case access =>
    intro m y k a hy hroute
    obtain ⟨s, hs⟩ := System.engine_of_route hy hroute
    exact ⟨_, s, System.access_of_route hroute y, (System.issueTo_wf y k _).trans hy, hs,
      System.issueTo_getElem?_self hs _, fun j hj => System.issueTo_getElem?_ne y hj _⟩
  case reset =>
    intro y k s hs
    exact ⟨System.issueTo_getElem?_self hs _, fun j hj => System.issueTo_getElem?_ne y hj _⟩

/-- Settles O43: without the reserved cause a step runs the transaction it takes (`step_of_txn`), and with
reset deasserted taking the cycle only shortens the queue. -/
theorem stepRunsTheNextTransaction : Obligations.StepRunsTheNextTransaction := by
  intro s t rest hrun hcause hq
  have hview : s.view.ecause ≠ causeReserved := by rwa [State.view_of_running hrun]
  rw [step_of_txn hview hq rfl, State.takeCycle_of_running hrun]

/-- Settles O60: the equations of the bridge, at bases that are word aligned. -/
theorem bridgeSelectsWholeWordsOnly : Obligations.BridgeSelectsWholeWordsOnly :=
  ⟨Config.csumBase_aligned, fun k => bridgeSelect_busAddress (csumBase_wordAligned k),
    fun k _ _ _ => bridgeSelect_ok (csumBase_wordAligned k), fun _ _ => bridgeSelect_outside,
    fun _ _ _ => bridgeSelect_notOneWord, fun _ _ => bridgeSelect_misaligned⟩

end Sys2Proof.Machine
end

section
/-! SUPPORT. Proofs of the statements on the state (10_state.md): the effect of an instruction and of a
bus cycle on the registers, the invariant, and what the registers hold of a history. -/

namespace Sys2Proof.Machine

/-! ### The effect of a command on each register -/

theorem pushbEffect_eq (b : Byte) (r : Regs) :
    pushbEffect b r = { r with
      acc := ocadd16 r.acc (byteContribution r.phase b), phase := !r.phase, done := false,
      mvalid := false, matched := false } := rfl

theorem pushwEffect_eq (w : Half) (r : Regs) :
    pushwEffect w r = { r with
      acc := ocadd16 r.acc (wordContribution r.phase w), done := false, mvalid := false,
      matched := false } := rfl

theorem finalEffect_eq (r : Regs) :
    finalEffect r = { r with result := ~~~r.acc, done := true, mvalid := false, matched := false } :=
  rfl

theorem verifyEffect_eq (c : Half) (r : Regs) :
    verifyEffect c r = { r with
      result := ~~~r.acc, done := true, mvalid := true, matched := ~~~r.acc == c } := rfl

@[simp] theorem commandEffect_nop (r : Regs) : commandEffect .nop r = r := rfl
@[simp] theorem commandEffect_clr (r : Regs) : commandEffect .clr r = Regs.reset := rfl
@[simp] theorem commandEffect_pushb (b : Byte) (r : Regs) :
    commandEffect (.pushb b) r = pushbEffect b r := rfl
@[simp] theorem commandEffect_pushw (w : Half) (r : Regs) :
    commandEffect (.pushw w) r = pushwEffect w r := rfl
@[simp] theorem commandEffect_final (r : Regs) : commandEffect .final r = finalEffect r := rfl
@[simp] theorem commandEffect_verify (c : Half) (r : Regs) :
    commandEffect (.verify c) r = verifyEffect c r := rfl
@[simp] theorem commandEffect_illegalLow (op : BitVec 4) (r : Regs) :
    commandEffect (.illegalLow op) r = r.raiseErr causeIllegalOp := rfl
@[simp] theorem commandEffect_illegalHigh (op : BitVec 4) (r : Regs) :
    commandEffect (.illegalHigh op) r = r.raiseErr causeIllegalOp := rfl

/-! R13's "written by" column: what a command outside it leaves as it is. -/

theorem commandEffect_acc {c : Command} (h : ¬(c.isPush = true ∨ c = .clr)) (r : Regs) :
    (commandEffect c r).acc = r.acc := by
  cases c
  case clr => exact absurd (.inr rfl) h
  case pushb | pushw => exact absurd (.inl rfl) h
  case nop | final | verify => rfl
  case illegalLow | illegalHigh => simp [Regs.raiseErr_frame]

theorem commandEffect_phase {c : Command} (h : ¬((∃ b, c = .pushb b) ∨ c = .clr)) (r : Regs) :
    (commandEffect c r).phase = r.phase := by
  cases c
  case clr => exact absurd (.inr rfl) h
  case pushb b => exact absurd (.inl ⟨b, rfl⟩) h
  case nop | pushw | final | verify => rfl
  case illegalLow | illegalHigh => simp [Regs.raiseErr_frame]

theorem commandEffect_result {c : Command} (h : ¬(c.isResult = true ∨ c = .clr)) (r : Regs) :
    (commandEffect c r).result = r.result := by
  cases c
  case clr => exact absurd (.inr rfl) h
  case final | verify => exact absurd (.inl rfl) h
  case nop | pushb | pushw => rfl
  case illegalLow | illegalHigh => simp [Regs.raiseErr_frame]

theorem commandEffect_verdict {c : Command}
    (h : ¬(c.isPush = true ∨ c.isResult = true ∨ c = .clr)) (r : Regs) :
    (commandEffect c r).done = r.done ∧ (commandEffect c r).mvalid = r.mvalid ∧
      (commandEffect c r).matched = r.matched := by
  cases c
  case clr => exact absurd (.inr (.inr rfl)) h
  case pushb | pushw => exact absurd (.inl rfl) h
  case final | verify => exact absurd (.inr (.inl rfl)) h
  case nop => exact ⟨rfl, rfl, rfl⟩
  case illegalLow | illegalHigh => simp [Regs.raiseErr_frame]

theorem commandEffect_error {c : Command} (h : ¬(c.isIllegal = true ∨ c = .clr)) (r : Regs) :
    (commandEffect c r).err = r.err ∧ (commandEffect c r).ecause = r.ecause := by
  cases c
  case clr => exact absurd (.inr rfl) h
  case illegalLow | illegalHigh => exact absurd (.inl rfl) h
  case nop | pushb | pushw | final | verify => exact ⟨rfl, rfl⟩

/-- R22, R77: a recorded error and its cause stay through every command but CLR. -/
theorem commandEffect_recordedError {c : Command} (hclr : c ≠ .clr) {r : Regs} (herr : r.err = true) :
    (commandEffect c r).err = true ∧ (commandEffect c r).ecause = r.ecause := by
  cases c
  case clr => exact absurd rfl hclr
  case nop | pushb | pushw | final | verify => exact ⟨herr, rfl⟩
  case illegalLow | illegalHigh => simp [Regs.raiseErr_of_err _ herr, herr]

/-- A push makes RESULT stale and drops the verdict (R60, R61). -/
theorem commandEffect_push {c : Command} (h : c.isPush = true) (r : Regs) :
    (commandEffect c r).done = false ∧ (commandEffect c r).mvalid = false ∧
      (commandEffect c r).matched = false := by
  cases c
  case pushb | pushw => exact ⟨rfl, rfl, rfl⟩
  case nop | clr | final | verify | illegalLow | illegalHigh => cases h

/-! ### The effect of an instruction -/

/-- What an instruction does to the registers with reset deasserted: the command it carries to CMD, the
error of a write to a read-only register, or nothing. -/
def instrEffect (i : Instr) (r : Regs) : Regs :=
  match i.command? with
  | some c => commandEffect c r
  | none => if i.writesReadOnly then r.raiseErr causeRoWrite else r

theorem instrEffect_of_command {i : Instr} {c : Command} (h : i.command? = some c) (r : Regs) :
    instrEffect i r = commandEffect c r := by
  simp [instrEffect, h]

theorem instrEffect_of_write {i : Instr} (h : i.command? = none) (hw : i.writesReadOnly = true)
    (r : Regs) : instrEffect i r = r.raiseErr causeRoWrite := by
  simp [instrEffect, h, hw]

theorem instrEffect_of_read {i : Instr} (h : i.command? = none) (hw : i.writesReadOnly = false)
    (r : Regs) : instrEffect i r = r := by
  simp [instrEffect, h, hw]

/-- What holds of the effect of the command an instruction carries, of an RO_WRITE error if it writes a
read-only register, and of no change if it does neither, holds of the instruction's effect. -/
theorem instrEffect_cases {motive : Regs → Prop} {i : Instr} {r : Regs}
    (command : ∀ c, i.command? = some c → motive (commandEffect c r))
    (write : i.command? = none → i.writesReadOnly = true → motive (r.raiseErr causeRoWrite))
    (read : i.command? = none → i.writesReadOnly = false → motive r) :
    motive (instrEffect i r) := by
  cases hc : i.command? with
  | some c =>
    rw [instrEffect_of_command hc]
    exact command c hc
  | none =>
    cases hw : i.writesReadOnly
    · rw [instrEffect_of_read hc hw]
      exact read hc hw
    · rw [instrEffect_of_write hc hw]
      exact write hc hw

theorem carries_of_command {i : Instr} {c : Command} (h : i.command? = some c) (f : Command → Bool) :
    i.carries f = f c := by
  simp [Instr.carries, h]

theorem carries_iff {i : Instr} {f : Command → Bool} :
    i.carries f = true ↔ ∃ c, i.command? = some c ∧ f c = true := by
  cases hc : i.command? <;> simp [Instr.carries, hc]

/-! ### What `exec` answers, register by register -/

theorem State.busWrite_regs (s : State) (f : Regs → Regs) :
    (s.busWrite f).regs = if s.resetIn then s.regs else f s.regs := by
  cases h : s.resetIn <;> simp [State.busWrite, h]

/-- `exec` answers every instruction with a next state, whose registers are the instruction's effect;
while reset is asserted there is none. Beside the registers only a read's word changes. -/
theorem exec_spec (i : Instr) (s : State) : ∃ t, exec i s = .next t ∧
    t.regs = (if s.resetIn then s.regs else instrEffect i s.regs) ∧
    t.resetIn = s.resetIn ∧ t.queue = s.queue ∧ (t.rdata ≠ s.rdata → i.isRead = true) := by
  rcases exec_inversion i s with ⟨c, hc, he⟩ | ⟨a, rfl, he⟩ | ⟨d, hd, he⟩
  · exact ⟨_, he, by simp only [State.busWrite_regs, instrEffect_of_command hc], by simp, by simp,
      by simp⟩
  · have hnone : a.readInstr.command? = none := by cases a <;> rfl
    have hread : a.readInstr.writesReadOnly = false := by cases a <;> rfl
    exact ⟨_, he, by simp [instrEffect_of_read hnone hread], rfl, rfl, fun _ => by cases a <;> rfl⟩
  · have hnone : i.command? = none := by rcases hd with rfl | rfl | rfl <;> rfl
    have hwrite : i.writesReadOnly = true := by rcases hd with rfl | rfl | rfl <;> rfl
    exact ⟨_, he, by simp only [State.busWrite_regs, instrEffect_of_write hnone hwrite, roWriteEffect],
      by simp, by simp, by simp⟩

theorem exec_next {i : Instr} {s t : State} (h : exec i s = .next t) :
    t.regs = (if s.resetIn then s.regs else instrEffect i s.regs) ∧
    t.resetIn = s.resetIn ∧ t.queue = s.queue ∧ (t.rdata ≠ s.rdata → i.isRead = true) := by
  obtain ⟨t', ht', hspec⟩ := exec_spec i s
  obtain rfl : t = t' := by simpa [h] using ht'
  exact hspec

/-- What holds of the registers before an instruction holds after it, if the command it carries, or the
error of a write to a read-only register, keeps it. -/
theorem exec_keeps (Q : Regs → Prop) {i : Instr} {s t : State} (h : exec i s = .next t)
    (before : Q s.regs) (command : ∀ c, i.command? = some c → Q (commandEffect c s.regs))
    (write : i.writesReadOnly = true → Q (s.regs.raiseErr causeRoWrite)) : Q t.regs := by
  obtain ⟨hregs, _⟩ := exec_next h
  rw [hregs]
  split
  · exact before
  · exact instrEffect_cases command (fun _ => write) (fun _ _ => before)

/-! The registers an instruction leaves as they are, by R13's "written by" column. -/

theorem exec_keeps_acc {i : Instr} {s t : State} (h : exec i s = .next t)
    (hcol : ¬(i.carries Command.isPush = true ∨ i.command? = some .clr)) :
    t.regs.acc = s.regs.acc := by
  refine exec_keeps (fun r => r.acc = s.regs.acc) h rfl (fun c hc => ?_) (fun _ => ?_)
  · exact commandEffect_acc (by simpa [carries_of_command hc, hc] using hcol) _
  · simp [Regs.raiseErr_frame]

theorem exec_keeps_phase {i : Instr} {s t : State} (h : exec i s = .next t)
    (hcol : ¬((∃ b, i.command? = some (.pushb b)) ∨ i.command? = some .clr)) :
    t.regs.phase = s.regs.phase := by
  refine exec_keeps (fun r => r.phase = s.regs.phase) h rfl (fun c hc => ?_) (fun _ => ?_)
  · exact commandEffect_phase (by simpa [hc] using hcol) _
  · simp [Regs.raiseErr_frame]

theorem exec_keeps_result {i : Instr} {s t : State} (h : exec i s = .next t)
    (hcol : ¬(i.carries Command.isResult = true ∨ i.command? = some .clr)) :
    t.regs.result = s.regs.result := by
  refine exec_keeps (fun r => r.result = s.regs.result) h rfl (fun c hc => ?_) (fun _ => ?_)
  · exact commandEffect_result (by simpa [carries_of_command hc, hc] using hcol) _
  · simp [Regs.raiseErr_frame]

theorem exec_keeps_verdict {i : Instr} {s t : State} (h : exec i s = .next t)
    (hcol : ¬(i.carries Command.isPush = true ∨ i.carries Command.isResult = true ∨
      i.command? = some .clr)) :
    t.regs.done = s.regs.done ∧ t.regs.mvalid = s.regs.mvalid ∧ t.regs.matched = s.regs.matched := by
  refine exec_keeps (fun r => r.done = s.regs.done ∧ r.mvalid = s.regs.mvalid ∧
    r.matched = s.regs.matched) h ⟨rfl, rfl, rfl⟩ (fun c hc => ?_) (fun _ => ?_)
  · exact commandEffect_verdict (by simpa [carries_of_command hc, hc] using hcol) _
  · simp [Regs.raiseErr_frame]

theorem exec_keeps_error {i : Instr} {s t : State} (h : exec i s = .next t)
    (hcol : ¬(i.carries Command.isIllegal = true ∨ i.writesReadOnly = true ∨
      i.command? = some .clr)) :
    t.regs.err = s.regs.err ∧ t.regs.ecause = s.regs.ecause := by
  simp only [not_or] at hcol
  obtain ⟨hill, hwrite, hclr⟩ := hcol
  refine exec_keeps (fun r => r.err = s.regs.err ∧ r.ecause = s.regs.ecause) h ⟨rfl, rfl⟩
    (fun c hc => ?_) (fun hw => absurd hw hwrite)
  have hillCommand : ¬c.isIllegal = true := by rwa [← carries_of_command hc Command.isIllegal]
  exact commandEffect_error (not_or.2 ⟨hillCommand, fun h => hclr (h ▸ hc)⟩) _

/-! ### The words a host reads -/

theorem exec_read (a : RegIndex) (s : State) :
    exec (decodeTxn (.read a)) s = .next (s.busRead (BusReg.ofIndex a)) := by
  simp only [decodeTxn]
  cases BusReg.ofIndex a <;> rfl

/-- R18: the flags in their places in STATUS. -/
theorem Regs.statusWord_flags (r : Regs) :
    r.statusWord.getLsbD 0 = r.phase ∧ r.statusWord.getLsbD 1 = r.done ∧
      r.statusWord.getLsbD 2 = r.mvalid ∧ r.statusWord.getLsbD 3 = r.matched ∧
      r.statusWord.getLsbD 4 = r.err := by
  simp only [Regs.statusWord, BitVec.getLsbD_append]
  simp

theorem Regs.statusWord_ecause (r : Regs) : r.statusWord.extractLsb' 5 2 = r.ecause := by
  apply BitVec.eq_of_getLsbD_eq
  intro k hk
  simp only [Regs.statusWord, BitVec.getLsbD_extractLsb', BitVec.getLsbD_append]
  simp [hk, show ¬ 5 + k < 1 by omega]

/-- The words of STATUS, ACC and RESULT hold every bit of the registers (R23). -/
theorem Regs.eq_of_readWord_eq {r r' : Regs} (h : ∀ a, r.readWord a = r'.readWord a) : r = r' := by
  have hstatus : r.statusWord = r'.statusWord := h .status
  have hacc : r.acc.setWidth 32 = r'.acc.setWidth 32 := h .acc
  have hresult : r.result.setWidth 32 = r'.result.setWidth 32 := h .result
  have hcause := congrArg (BitVec.extractLsb' 5 2) hstatus
  obtain ⟨hphase, hdone, hmvalid, hmatched, herr⟩ := r.statusWord_flags
  obtain ⟨hphase', hdone', hmvalid', hmatched', herr'⟩ := r'.statusWord_flags
  rw [Regs.statusWord_ecause, Regs.statusWord_ecause] at hcause
  rw [hstatus] at hphase hdone hmvalid hmatched herr
  cases r
  cases r'
  simp only [Regs.mk.injEq]
  exact ⟨by simpa using congrArg (BitVec.setWidth 16) hacc, hphase.symm.trans hphase',
    by simpa using congrArg (BitVec.setWidth 16) hresult, hdone.symm.trans hdone',
    hmvalid.symm.trans hmvalid', hmatched.symm.trans hmatched', herr.symm.trans herr', hcause⟩

/-! ### The invariant -/

theorem Regs.reset_ok : Regs.reset.Ok where
  noCause := by decide
  cause := by decide
  verdict := by decide
  mvalidDone := by decide
  doneResult := by decide

/-- Either cause of R78 may be raised. -/
theorem Regs.Ok.raiseErr {r : Regs} (h : r.Ok) {cause : BitVec 2}
    (hcause : cause = causeIllegalOp ∨ cause = causeRoWrite) : (r.raiseErr cause).Ok := by
  cases herr : r.err
  · rw [Regs.raiseErr_of_noErr _ herr]
    exact { h with noCause := nofun, cause := fun _ => hcause }
  · rwa [Regs.raiseErr_of_err _ herr]

theorem Regs.Ok.commandEffect {r : Regs} (h : r.Ok) (c : Command) : (commandEffect c r).Ok := by
  cases c
  case nop => exact h
  case clr => exact Regs.reset_ok
  case pushb | pushw =>
    exact { noCause := h.noCause, cause := h.cause, verdict := fun _ => rfl, mvalidDone := nofun,
            doneResult := nofun }
  case final =>
    exact { noCause := h.noCause, cause := h.cause, verdict := fun _ => rfl, mvalidDone := nofun,
            doneResult := fun _ => rfl }
  case verify =>
    exact { noCause := h.noCause, cause := h.cause, verdict := nofun, mvalidDone := fun _ => rfl,
            doneResult := fun _ => rfl }
  case illegalLow | illegalHigh => exact h.raiseErr (.inl rfl)

theorem Regs.Ok.instrEffect {r : Regs} (h : r.Ok) (i : Instr) : (instrEffect i r).Ok :=
  instrEffect_cases (fun c _ => h.commandEffect c) (fun _ _ => h.raiseErr (.inr rfl)) (fun _ _ => h)

theorem State.Ok.view {s : State} (h : s.Ok) : s.view.Ok := by
  cases hr : s.resetIn
  · simpa [State.view_of_running hr] using h.regs
  · simpa [State.view_in_reset hr] using Regs.reset_ok

/-- The reserved cause does not occur. -/
theorem Regs.Ok.ecause_ne {r : Regs} (h : r.Ok) : r.ecause ≠ causeReserved := by
  cases herr : r.err
  · simp [h.noCause herr, causeReserved]
  · rcases h.cause herr with hc | hc <;> simp [hc, causeReserved]

/-! ### Steps -/

/-- What a bus cycle does to the registers the bus sees: reset puts them at their reset values and takes
priority over the transaction (R82). -/
def cycleEffect (c : BusCycle) (r : Regs) : Regs :=
  if c.reset then Regs.reset
  else
    match c.txn with
    | some t => instrEffect (decodeTxn t) r
    | none => r

theorem cycleEffect_reset {c : BusCycle} (h : c.reset = true) (r : Regs) :
    cycleEffect c r = Regs.reset := by
  simp [cycleEffect, h]

theorem cycleEffect_idle {c : BusCycle} (h : c.reset = false) (ht : c.txn = none) (r : Regs) :
    cycleEffect c r = r := by
  simp [cycleEffect, h, ht]

theorem cycleEffect_txn {c : BusCycle} {t : Txn} (h : c.reset = false) (ht : c.txn = some t)
    (r : Regs) : cycleEffect c r = instrEffect (decodeTxn t) r := by
  simp [cycleEffect, h, ht]

theorem State.takeCycle_regs (s : State) (c : BusCycle) (rest : List BusCycle) :
    (s.takeCycle c rest).regs = if c.reset then Regs.reset else s.view := rfl

/-- A step with a bus cycle to take: the cycle's effect, its reset level, and the rest of the queue. -/
theorem step_cycle {s t : State} {c : BusCycle} {rest : List BusCycle} (hq : s.queue = c :: rest)
    (h : step s = .next t) :
    t.regs = cycleEffect c s.view ∧ t.resetIn = c.reset ∧ t.queue = rest := by
  rcases step_inversion s with ⟨_, hf⟩ | ⟨_, ⟨hnil, _⟩ | ⟨c', rest', hq', hcase⟩⟩
  · simp [h] at hf
  · simp [hq] at hnil
  obtain ⟨rfl, rfl⟩ := List.cons.inj (hq.symm.trans hq')
  rcases hcase with ⟨hnone, hs⟩ | ⟨x, hx, hs⟩
  · obtain rfl : t = s.takeCycle c rest := by simpa [h] using hs
    refine ⟨?_, rfl, rfl⟩
    cases hr : c.reset <;> simp [State.takeCycle_regs, cycleEffect, hr, hnone]
  · obtain ⟨hregs, hreset, hqueue, _⟩ := exec_next (hs.symm.trans h)
    refine ⟨?_, hreset, hqueue⟩
    cases hr : c.reset <;> simp [hregs, State.takeCycle_regs, cycleEffect, hr, hx]

/-- After a bus cycle the bus sees its effect. -/
theorem step_cycle_view {s t : State} {c : BusCycle} {rest : List BusCycle} (hq : s.queue = c :: rest)
    (h : step s = .next t) : t.view = cycleEffect c s.view := by
  obtain ⟨hregs, hreset, _⟩ := step_cycle hq h
  cases hr : c.reset
  · rw [State.view_of_running (hreset.trans hr), hregs]
  · rw [State.view_in_reset (hreset.trans hr), cycleEffect_reset hr]

theorem step_of_empty_queue {s t : State} (hq : s.queue = []) (h : step s = .next t) : t = s := by
  rcases step_inversion s with ⟨_, hf⟩ | ⟨_, ⟨_, hs⟩ | ⟨c, rest, hq', _⟩⟩
  · simp [h] at hf
  · simpa [h] using hs
  · simp [hq] at hq'

/-- Only the reserved cause stops a step. -/
theorem step_total {s : State} (hc : s.view.ecause ≠ causeReserved) : ∃ t, step s = .next t := by
  rcases step_inversion s with ⟨hr, _⟩ | ⟨_, ⟨_, hs⟩ | ⟨c, rest, _, ⟨_, hs⟩ | ⟨x, _, hs⟩⟩⟩
  · exact absurd hr hc
  · exact ⟨s, hs⟩
  · exact ⟨_, hs⟩
  · obtain ⟨t, ht, _⟩ := exec_spec (decodeTxn x) (s.takeCycle c rest)
    exact ⟨t, hs.trans ht⟩

theorem Regs.Ok.cycleEffect {r : Regs} (h : r.Ok) (c : BusCycle) : (cycleEffect c r).Ok := by
  cases hr : c.reset
  · cases ht : c.txn with
    | none => rwa [cycleEffect_idle hr ht]
    | some t => simpa [cycleEffect_txn hr ht] using h.instrEffect (decodeTxn t)
  · simpa [cycleEffect_reset hr] using Regs.reset_ok

/-- Settles O48: a step with no cycle to take stands still, any other one leaves the effect of its bus
cycle (`step_cycle`), which keeps the registers in order. -/
theorem everyStepKeepsTheInvariant : Obligations.EveryStepKeepsTheInvariant := by
  intro s t hok hstep
  cases hq : s.queue with
  | nil => rwa [step_of_empty_queue hq hstep]
  | cons c rest =>
    obtain ⟨hregs, hreset, _⟩ := step_cycle hq hstep
    exact { regs := hregs ▸ hok.view.cycleEffect c
            inReset := fun hr => hregs.trans (cycleEffect_reset (hreset ▸ hr) _) }

/-! ### Arithmetic of the running sum -/

/-- R56 for a positive sum. -/
theorem fold_of_pos {s : Nat} (hs : 0 < s) : fold s = (s - 1) % 0xFFFF + 1 := by
  refine fold_induction (fun s y => 0 < s → y = (s - 1) % 0xFFFF + 1) ?_ ?_ s hs
  · omega
  · intro s hge ih _
    have := ih (by omega)
    omega

theorem fold_zero : fold 0 = 0 := rfl

/-- Folding a part of a sum first changes nothing. -/
theorem fold_fold_add (s n : Nat) : fold (fold s + n) = fold (s + n) := by
  rcases Nat.eq_zero_or_pos s with rfl | hs
  · rw [fold_zero]
  · rw [fold_of_pos hs, fold_of_pos (by omega), fold_of_pos (by omega)]
    omega

/-- The adder is the fold of the exact sum (R59). -/
theorem ocadd16_toNat_eq_fold (a x : Half) : (ocadd16 a x).toNat = fold (a.toNat + x.toNat) := by
  have ha := a.isLt
  have hx := x.isLt
  rw [ocadd16_toNat]
  split
  · rw [fold_eq, if_neg (by omega)]
  · rw [fold_of_pos (by omega)]
    omega

theorem byteContribution_toNat (phase : Bool) (b : Byte) :
    (byteContribution phase b).toNat = if phase then b.toNat else b.toNat * 256 := by
  cases phase
  · exact highContribution_toNat b
  · exact lowContribution_toNat b

theorem half_toNat (w : Half) : w.toNat = (earlierByte w).toNat * 256 + (laterByte w).toNat := by
  have hw := w.isLt
  simp only [earlierByte, laterByte, BitVec.extractLsb'_toNat, Nat.shiftRight_eq_div_pow]
  omega

theorem wordContribution_toNat (phase : Bool) (w : Half) :
    (wordContribution phase w).toNat =
      if phase then (laterByte w).toNat * 256 + (earlierByte w).toNat
      else (earlierByte w).toNat * 256 + (laterByte w).toNat := by
  cases phase
  · exact half_toNat w
  · exact byte_append_toNat _ _

/-- A pushed word adds what its two bytes add one after the other (R64). -/
theorem ocadd16_wordContribution (a : Half) (phase : Bool) (w : Half) :
    ocadd16 a (wordContribution phase w) =
      ocadd16 (ocadd16 a (byteContribution phase (earlierByte w)))
        (byteContribution (!phase) (laterByte w)) := by
  apply BitVec.eq_of_toNat_eq
  simp only [ocadd16_toNat_eq_fold, fold_fold_add, wordContribution_toNat, byteContribution_toNat]
  congr 1
  cases phase <;> simp <;> omega

theorem pushwEffect_eq_pushb_pushb (w : Half) (r : Regs) :
    pushwEffect w r = pushbEffect (laterByte w) (pushbEffect (earlierByte w) r) := by
  simp [pushwEffect_eq, pushbEffect_eq, ocadd16_wordContribution]

/-! ### What the registers hold of a history -/

theorem Holds.start : Holds History.start Regs.reset where
  acc := rfl
  phase := rfl
  result := nofun
  verdict := nofun

/-- A history is held in ACC, PHASE, RESULT and the verdict flags alone. -/
theorem Holds.raiseErr {h : History} {r : Regs} (hold : Holds h r) (cause : BitVec 2) :
    Holds h (r.raiseErr cause) := by
  obtain ⟨hacc, hphase, hresult, hdone, hmvalid, hmatched⟩ := r.raiseErr_frame cause
  constructor
  · rw [hacc]; exact hold.acc
  · rw [hphase]; exact hold.phase
  · rw [hdone, hresult]; exact hold.result
  · rw [hmvalid, hmatched]; exact hold.verdict

/-- The complement of ACC is the code of the bytes pushed (R63). -/
theorem Holds.not_acc {h : History} {r : Regs} (hold : Holds h r) : ~~~r.acc = compute h.pushed := by
  rw [compute, ← hold.acc, BitVec.ofNat_toNat, BitVec.setWidth_eq]

theorem Holds.pushb {h : History} {r : Regs} (hold : Holds h r) (b : Byte) :
    Holds (h.command (.pushb b)) (pushbEffect b r) where
  acc := by
    simp only [pushbEffect_eq, History.command, ocadd16_toNat_eq_fold, byteContribution_toNat,
      hold.acc, hold.phase, fold_fold_add, wordSum_append_byte, decide_eq_true_eq]
  phase := by
    simp only [pushbEffect_eq, History.command, hold.phase, List.length_append,
      List.length_singleton, ← decide_not, decide_eq_decide]
    omega
  result := nofun
  verdict := nofun

theorem History.command_pushw (w : Half) (h : History) :
    h.command (.pushw w) = (h.command (.pushb (earlierByte w))).command (.pushb (laterByte w)) := by
  simp [History.command, bytesOfHalf, earlierByte, laterByte]

theorem Holds.commandEffect {h : History} {r : Regs} (hold : Holds h r) (c : Command) :
    Holds (h.command c) (commandEffect c r) := by
  cases c
  case nop => exact hold
  case clr => exact Holds.start
  case pushb b => exact hold.pushb b
  case pushw w =>
    rw [History.command_pushw, commandEffect_pushw, pushwEffect_eq_pushb_pushb]
    exact (hold.pushb _).pushb _
  case final =>
    exact { acc := hold.acc, phase := hold.phase, result := fun _ => hold.not_acc, verdict := nofun }
  case verify code =>
    exact { acc := hold.acc, phase := hold.phase, result := fun _ => hold.not_acc,
            verdict := fun _ => ⟨code, rfl, congrArg (· == code) hold.not_acc⟩ }
  case illegalLow | illegalHigh => exact hold.raiseErr causeIllegalOp

theorem Holds.instrEffect {h : History} {r : Regs} (hold : Holds h r) (i : Instr) :
    Holds (h.instr i) (instrEffect i r) := by
  apply instrEffect_cases
  · intro c hc
    simpa [History.instr, hc] using hold.commandEffect c
  · intro hc _
    simpa [History.instr, hc] using hold.raiseErr causeRoWrite
  · intro hc _
    simpa [History.instr, hc] using hold

theorem Holds.cycleEffect {h : History} {r : Regs} (hold : Holds h r) (c : BusCycle) :
    Holds (h.cycle c) (cycleEffect c r) := by
  cases hr : c.reset
  · cases ht : c.txn with
    | none => simpa [History.cycle, hr, ht, cycleEffect_idle hr ht] using hold
    | some t =>
      simpa [History.cycle, hr, ht, cycleEffect_txn hr ht] using hold.instrEffect (decodeTxn t)
  · simpa [History.cycle, hr, cycleEffect_reset hr] using Holds.start

/-! ### Runs -/

theorem core_run_succ {s t : State} (h : step s = .next t) (n : Nat) :
    Sys2Proof.core.run (n + 1) s = Sys2Proof.core.run n t := by
  have hcore : Sys2Proof.core.step s = .next t := h
  simp [Host.Core.run, hcore]

/-- From a state in order that holds a history, a run takes all its bus cycles and ends in a state in order
that holds the history continued by them. -/
theorem run_holds (cs : List BusCycle) {s : State} {h : History} (hq : s.queue = cs) (hok : s.Ok)
    (hold : Holds h s.view) : ∃ t : State, Sys2Proof.core.run cs.length s = .next t ∧ t.queue = [] ∧
      t.Ok ∧ Holds (h.cycles cs) t.view := by
  induction cs generalizing s h with
  | nil => exact ⟨s, rfl, hq, hok, hold⟩
  | cons c rest ih =>
    obtain ⟨u, hu⟩ := step_total hok.view.ecause_ne
    obtain ⟨_, _, hqueue⟩ := step_cycle hq hu
    have hview : Holds (h.cycle c) u.view := step_cycle_view hq hu ▸ hold.cycleEffect c
    obtain ⟨t, hrun, hend⟩ := ih hqueue (everyStepKeepsTheInvariant s u hok hu) hview
    exact ⟨t, (core_run_succ hu rest.length).trans hrun, hend⟩

/-! ### The statements -/

/-- Settles O19: a read returns the word of its register (`exec_read`), and the four words determine the
registers (`Regs.eq_of_readWord_eq`). -/
theorem everyRegisterBitIsReadable : Obligations.EveryRegisterBitIsReadable := by
  intro s s' hrun hrun' hsame
  apply Regs.eq_of_readWord_eq
  intro a
  have hword := hsame a.index _ _ (exec_read a.index s) (exec_read a.index s')
  have hindex : BusReg.ofIndex a.index = a := by cases a <;> rfl
  simpa [hindex, State.view_of_running hrun, State.view_of_running hrun'] using hword

/-- Settles O22: every command but CLR keeps a recorded error, and so does a further error. -/
theorem recordedErrorStaysUntilClr : Obligations.RecordedErrorStaysUntilClr := by
  intro i s herr hclr
  obtain ⟨t, ht, _⟩ := exec_spec i s
  refine ⟨t, ht, exec_keeps (fun r => r.err = true ∧ r.ecause = s.regs.ecause) ht ⟨herr, rfl⟩ ?_ ?_⟩
  · intro c hc
    exact commandEffect_recordedError (fun h => hclr (h ▸ hc)) herr
  · intro _
    rw [Regs.raiseErr_of_err _ herr]
    exact ⟨herr, rfl⟩

/-- Settles O24: outside its "written by" column a register stays as it is (`exec_keeps_acc` and its
kin), and of the interface only a read's word changes (`exec_next`). -/
theorem registersChangeOnlyUnderTheirCommands : Obligations.RegistersChangeOnlyUnderTheirCommands := by
  intro i s t h
  refine ⟨fun hne => ?acc, fun hne => ?phase, fun hne => ?result, fun hne => ?verdict,
    fun hne => ?error, ?interface⟩
  case interface =>
    obtain ⟨_, hreset, hqueue, hread⟩ := exec_next h
    exact ⟨hread, hreset, hqueue⟩
  all_goals by_contra hcol
  case acc => exact hne (exec_keeps_acc h hcol)
  case phase => exact hne (exec_keeps_phase h hcol)
  case result => exact hne (exec_keeps_result h hcol)
  case verdict => simp [exec_keeps_verdict h hcol] at hne
  case error => simp [exec_keeps_error h hcol] at hne

/-- Settles O25: with reset deasserted the flags are those of the effect of the command carried, if it is
one that writes them, and otherwise they stay (`exec_keeps_verdict`). -/
theorem verdictFlagRules : Obligations.VerdictFlagRules := by
  intro i s hrun
  obtain ⟨t, ht, hregs, _⟩ := exec_spec i s
  have heffect {c : Command} (hc : i.command? = some c) : t.regs = commandEffect c s.regs := by
    rw [hregs, hrun, if_neg Bool.false_ne_true, instrEffect_of_command hc]
  refine ⟨t, ht, ?final, ?verify, ?stale, ?other⟩
  case final =>
    intro hc
    simp [heffect hc, finalEffect_eq]
  case verify =>
    intro code hc
    simp [heffect hc, verifyEffect_eq]
  case stale =>
    rintro (hpush | hc)
    · obtain ⟨c, hc, hpush⟩ := carries_iff.1 hpush
      rw [heffect hc]
      exact commandEffect_push hpush _
    · rw [heffect hc]
      exact ⟨rfl, rfl, rfl⟩
  case other =>
    intro hpush hres hclr
    exact exec_keeps_verdict ht (by simp [hpush, hres, hclr])

/-- Settles O51: the run lemma `run_holds` at reset, where the registers are in order and hold the empty
history. -/
theorem everyRunHoldsItsHistory : Obligations.EveryRunHoldsItsHistory := fun cs =>
  run_holds cs (List.append_nil cs) { regs := Regs.reset_ok, inReset := nofun } Holds.start

end Sys2Proof.Machine
end

section
/-! SUPPORT. Proofs of the statements on the register map (20_memory.md): bus writes and reads by index,
which transactions are idempotent, what the byte decoder accepts, the observation that ends a computation,
and two masters' pushes. -/

namespace Sys2Proof

/-! ### Frames of bytes -/

/-- What a frame that is accepted looks like. -/
theorem parseFrame_ok {bs : List Byte} {f : Frame} (h : parseFrame bs = .ok f) :
    (∃ hd, bs = [hd] ∧ headInRange hd = true ∧ headIsWrite hd = false ∧
      f = .transfer (.read (headIndex hd))) ∨
    (∃ b0 b1 b2 b3, bs = [b0, b1, b2, b3] ∧ f = .command (wordOfBytes b0 b1 b2 b3)) ∨
    (∃ hd b0 b1 b2 b3, bs = [hd, b0, b1, b2, b3] ∧ headInRange hd = true ∧ headIsWrite hd = true ∧
      f = .transfer (.write (headIndex hd) (wordOfBytes b0 b1 b2 b3))) := by
  unfold parseFrame at h
  split at h
  · next hd =>
    split at h
    · cases h
    · next hr =>
      split at h
      · cases h
      · next hw =>
        exact .inl ⟨hd, rfl, by simpa using hr, by simpa using hw, (Except.ok.inj h).symm⟩
  · next b0 b1 b2 b3 =>
    exact .inr (.inl ⟨b0, b1, b2, b3, rfl, (Except.ok.inj h).symm⟩)
  · next hd b0 b1 b2 b3 =>
    split at h
    · cases h
    · next hr =>
      split at h
      · next hw =>
        exact .inr (.inr ⟨hd, b0, b1, b2, b3, rfl, by simpa using hr, hw, (Except.ok.inj h).symm⟩)
      · cases h
  · cases h

theorem decode_ok {bs : List Byte} {i : Instr} (h : decode bs = .ok i) :
    ∃ f, parseFrame bs = .ok f ∧ i = f.instr := by
  unfold decode at h
  split at h
  · next f hf => exact ⟨f, hf, (Except.ok.inj h).symm⟩
  · cases h

/-- A head within its three bits is its direction bit and its index. -/
theorem head_eq {hd : Byte} (h : headInRange hd = true) :
    hd = 0#5 ++ BitVec.ofBool (headIsWrite hd) ++ headIndex hd := by
  have hzero : hd.extractLsb' 3 5 = 0#5 := by simpa [headInRange] using h
  apply BitVec.eq_of_getLsbD_eq
  intro k hk
  have hhigh := congrArg (BitVec.getLsbD · (k - 3)) hzero
  simp only [BitVec.getLsbD_extractLsb', BitVec.getLsbD_zero] at hhigh
  simp only [headIndex, headIsWrite, BitVec.getLsbD_append, BitVec.getLsbD_extractLsb']
  split
  · simp [*]
  · split
    · simp [show k = 2 by omega]
    · simpa [show k - 3 < 5 by omega, show 3 + (k - 3) = k by omega] using hhigh

theorem bytesOfWord_wordOfBytes (b0 b1 b2 b3 : Byte) :
    bytesOfWord (wordOfBytes b0 b1 b2 b3) = [b0, b1, b2, b3] := by
  simp only [bytesOfWord, List.cons.injEq, and_true]
  refine ⟨?_, ?_, ?_, ?_⟩ <;> apply BitVec.eq_of_getLsbD_eq <;> intro k hk <;>
    simp only [wordOfBytes, BitVec.getLsbD_extractLsb', BitVec.getLsbD_append]
  · simp [hk]
  · simp [hk]
  · simp [hk, show ¬ 16 + k < 8 by omega, show ¬ 16 + k - 8 < 8 by omega,
      show 16 + k - 8 - 8 = k by omega]
  · simp [hk, show ¬ 24 + k < 8 by omega, show ¬ 24 + k - 8 < 8 by omega,
      show ¬ 24 + k - 8 - 8 < 8 by omega, show 24 + k - 8 - 8 - 8 = k by omega]

theorem BusReg.index_ofIndex (a : RegIndex) : (BusReg.ofIndex a).index = a := by
  revert a
  decide

theorem encode_read (a : RegIndex) : encode (decodeTxn (.read a)) = [0#5 ++ 0#1 ++ a] := by
  have hhead : encode (decodeTxn (.read a)) = [readHead (BusReg.ofIndex a)] := by
    simp only [decodeTxn]
    cases BusReg.ofIndex a <;> rfl
  rw [hhead, readHead, BusReg.index_ofIndex]

theorem encode_write (a : RegIndex) (d : Word) :
    encode (decodeTxn (.write a d)) = (0#5 ++ 1#1 ++ a) :: bytesOfWord d := by
  have hhead : encode (decodeTxn (.write a d)) = writeHead (BusReg.ofIndex a) :: bytesOfWord d := by
    simp only [decodeTxn]
    cases BusReg.ofIndex a <;> rfl
  rw [hhead, writeHead, BusReg.index_ofIndex]

/-- R48 hands each ILLEGAL row its own opcodes only. -/
theorem decodeCommand_wf (d : Word) : (decodeCommand d).toInstr.wf = true := by
  unfold decodeCommand
  split
  case h_7 h | h_8 h =>
    simp [Command.toInstr, Instr.wf, opInLowIllegalRow, ← BitVec.toNat_inj, h]
  case h_9 =>
    simp only [Command.toInstr, Instr.wf, opInHighIllegalRow, decide_eq_true_eq, BitVec.le_def,
      BitVec.toNat_ofNat]
    simp only [imp_false] at *
    omega
  all_goals rfl

theorem decodeTxn_wf (t : Txn) : (decodeTxn t).wf = true := by
  cases t with
  | read a => simp only [decodeTxn]; cases BusReg.ofIndex a <;> rfl
  | write a d => simp only [decodeTxn]; cases BusReg.ofIndex a <;> rfl

theorem Frame.instr_wf (f : Frame) : f.instr.wf = true := by
  cases f with
  | command d => exact decodeCommand_wf d
  | transfer t => exact decodeTxn_wf t

/-- Settles O32: by the three forms of an accepted frame (`parseFrame_ok`). A transfer's head is spelled
from its direction and index (`head_eq`), as the encoder spells it. -/
theorem decoderAcceptsOnlyFrames : Obligations.DecoderAcceptsOnlyFrames := by
  intro bs i h
  obtain ⟨f, hf, rfl⟩ := decode_ok h
  refine ⟨f.instr_wf, ?_⟩
  rcases parseFrame_ok hf with ⟨hd, rfl, hr, hw, rfl⟩ | ⟨b0, b1, b2, b3, rfl, rfl⟩ |
    ⟨hd, b0, b1, b2, b3, rfl, hr, hw, rfl⟩
  · refine ⟨.inl rfl, fun _ => ?_⟩
    have hhd := head_eq hr
    rw [hw] at hhd
    exact (encode_read _).trans (congrArg ([·]) hhd.symm)
  · exact ⟨.inr (.inl rfl), fun hne => absurd rfl hne⟩
  · refine ⟨.inr (.inr rfl), fun _ => ?_⟩
    have hhd := head_eq hr
    rw [hw] at hhd
    exact (encode_write _ _).trans (congrArg₂ _ hhd.symm (bytesOfWord_wordOfBytes b0 b1 b2 b3))

/-! ### A command word as a table word -/

theorem bytesOfNat_word (d : Word) : bytesOfNat 4 d.toNat = bytesOfWord d := by
  simp only [bytesOfNat, bytesOfWord, List.cons.injEq, and_true]
  refine ⟨?_, ?_, ?_, ?_⟩ <;> apply BitVec.eq_of_toNat_eq <;>
    simp only [BitVec.toNat_ofNat, BitVec.extractLsb'_toNat, Nat.shiftRight_eq_div_pow] <;> omega

theorem parseFrame_bytesOfWord (d : Word) : parseFrame (bytesOfWord d) = .ok (.command d) := by
  simp [parseFrame, bytesOfWord]

theorem tableTxn_commandWord (d : Word) : tableTxn 32 d.toNat = some (.write 0#2 d) := by
  have hframe : tableFrame 32 d.toNat = bytesOfWord d := congrArg padTransfer (bytesOfNat_word d)
  simp [tableTxn, hframe, parseFrame_bytesOfWord, Frame.txn]

end Sys2Proof

namespace Sys2Proof.Machine

/-! ### Bus writes and reads by index -/

theorem exec_of_command {i : Instr} {c : Command} (h : i.command? = some c) (s : State) :
    exec i s = .next (s.busWrite (commandEffect c)) :=
  (exec_eq_execCommand h s).trans (execCommand_eq c s)

theorem command?_toInstr (c : Command) : c.toInstr.command? = some c := by
  cases c <;> rfl

theorem exec_writeReadOnly {a : BusReg} (h : a ≠ .cmd) (d : Word) (s : State) :
    exec (a.writeInstr d) s = .next (s.busWrite (roWriteEffect d)) := by
  cases a
  case cmd => exact absurd rfl h
  case status | acc | result => rfl

theorem BusReg.ofIndex_ne_cmd {a : RegIndex} (h : a ≠ 0#2) : BusReg.ofIndex a ≠ .cmd := by
  revert a
  decide

/-- A bus write is an effect on the registers. -/
theorem exec_write (a : BusReg) (d : Word) (s : State) :
    ∃ f, exec (a.writeInstr d) s = .next (s.busWrite f) := by
  by_cases ha : a = .cmd
  · subst ha
    exact ⟨_, exec_of_command rfl s⟩
  · exact ⟨_, exec_writeReadOnly ha d s⟩

/-- Settles O17: a bus write is `State.busWrite` of an effect, which does nothing in reset; at index 0 it
is the effect of the decoded command, elsewhere the error. -/
theorem busWriteByIndex : Obligations.BusWriteByIndex := by
  intro a d s
  refine ⟨fun hreset => ?_, fun _ ha => ?_, fun hrun ha => ?_⟩
  · obtain ⟨f, hf⟩ := exec_write (BusReg.ofIndex a) d s
    rw [decodeTxn, hf, State.busWrite_in_reset f hreset]
  · subst ha
    exact ⟨rfl, _, exec_of_command rfl s, exec_of_command (command?_toInstr _) s⟩
  · rw [decodeTxn, exec_writeReadOnly (BusReg.ofIndex_ne_cmd ha), State.busWrite_of_running _ hrun]
    rfl

/-- After any read, a read finds the word it found before. -/
theorem State.busRead_busRead (s : State) (a b : BusReg) : (s.busRead a).busRead b = s.busRead b := rfl

/-- Settles O18: a read is `State.busRead` (`exec_read`), which an earlier read does not change. -/
theorem busReadByIndex : Obligations.BusReadByIndex := by
  intro a a' s hrun
  refine ⟨_, _, s.regs.readWord (BusReg.ofIndex a), exec_read a s, exec_read a' _, ?_, ?_, ?_⟩
  · rw [exec_read, State.busRead_busRead, State.busRead_busRead]
  · rw [State.busRead, State.view_of_running hrun]
  · refine ⟨?_, ?_, ?_, ?_⟩ <;> rintro rfl <;> rfl

/-! ### Issued words -/

/-- Settles O44: the word is the frame of a write to CMD (`tableTxn_commandWord`), and the next step
runs that write (O43). -/
theorem issuedCommandWordRuns : Obligations.IssuedCommandWordRuns := by
  intro s d hrun hcause
  have hissued : s.withFetchWord 32 d.toNat = s.issueNext (.write 0#2 d) := by
    simp [State.withFetchWord, tableTxn_commandWord]
  rw [hissued, stepRunsTheNextTransaction (s.issueNext (.write 0#2 d)) _ s.queue hrun hcause rfl]
  exact (exec_of_command rfl s).trans (exec_of_command (command?_toInstr _) s).symm

/-! ### Idempotence -/

theorem State.busWrite_idem {f : Regs → Regs} (hf : ∀ r, f (f r) = f r) (s : State) :
    (s.busWrite f).busWrite f = s.busWrite f := by
  cases h : s.resetIn
  · simp [State.busWrite_of_running f, h, hf]
  · simp [State.busWrite_in_reset f h]

theorem Regs.raiseErr_idem (c : BitVec 2) (r : Regs) : (r.raiseErr c).raiseErr c = r.raiseErr c :=
  Regs.raiseErr_of_err c (r.raiseErr_err c)

theorem commandEffect_idem {c : Command} (h : c.isPush = false) (r : Regs) :
    commandEffect c (commandEffect c r) = commandEffect c r := by
  cases c
  case pushb | pushw => cases h
  case nop | clr | final | verify => rfl
  case illegalLow | illegalHigh => exact r.raiseErr_idem causeIllegalOp

theorem exec_readInstr (a : BusReg) (s : State) : exec a.readInstr s = .next (s.busRead a) := by
  cases a <;> rfl

theorem exec_idem {i : Instr} (h : i.carries Command.isPush = false) (s : State) :
    ∃ t, exec i s = .next t ∧ exec i t = .next t := by
  rcases exec_inversion i s with ⟨c, hc, he⟩ | ⟨a, rfl, he⟩ | ⟨d, hd, he⟩
  · have hpush : c.isPush = false := by rwa [carries_of_command hc] at h
    refine ⟨_, he, ?_⟩
    rw [exec_of_command hc, State.busWrite_idem (commandEffect_idem hpush)]
  · exact ⟨_, he, exec_readInstr a _⟩
  · refine ⟨_, he, ?_⟩
    have hagain : ∀ t, exec i t = .next (t.busWrite (roWriteEffect d)) := by
      rcases hd with rfl | rfl | rfl <;> exact fun _ => rfl
    rw [hagain, State.busWrite_idem (f := roWriteEffect d) (Regs.raiseErr_idem causeRoWrite)]

/-- Settles O26: by the kinds of instructions (`exec_idem`). Pushed twice into the reset state, a byte adds
to ACC twice, and so does a word. -/
theorem idempotentTransactions : Obligations.IdempotentTransactions :=
  ⟨fun _ s h => exec_idem h s, ⟨1#8, State.reset, _, _, rfl, rfl, by decide⟩,
    ⟨1#16, State.reset, _, _, rfl, rfl, by decide⟩⟩

/-! ### Two masters -/

theorem Interleaving.perm {α : Type} {xs ys zs : List α} (h : Interleaving xs ys zs) :
    zs.Perm (xs ++ ys) := by
  induction h with
  | done => exact .nil
  | first _ ih => exact ih.cons _
  | second _ ih => exact (ih.cons _).trans List.perm_middle.symm

/-- Contributions join the sum in any order. -/
theorem ocadd16_right_comm (a x y : Half) : ocadd16 (ocadd16 a x) y = ocadd16 (ocadd16 a y) x := by
  apply BitVec.eq_of_toNat_eq
  simp only [ocadd16_toNat_eq_fold, fold_fold_add]
  congr 1
  omega

theorem pushwEffect_comm (v w : Half) (r : Regs) :
    pushwEffect w (pushwEffect v r) = pushwEffect v (pushwEffect w r) := by
  simp [pushwEffect_eq, ocadd16_right_comm r.acc (wordContribution r.phase v)]

theorem State.busWrite_comm {f g : Regs → Regs} (h : ∀ r, f (g r) = g (f r)) (s : State) :
    (s.busWrite g).busWrite f = (s.busWrite f).busWrite g := by
  cases hr : s.resetIn
  · simp [State.busWrite_of_running, hr, h]
  · simp [State.busWrite_in_reset, hr]

/-- The state a PUSHW leaves. -/
def pushwState (s : State) (w : Half) : State := s.busWrite (pushwEffect w)

theorem exec_pushw (w : Half) (s : State) : exec (.pushw w) s = .next (pushwState s w) := rfl

theorem execAll_pushw (ws : List Half) (s : State) :
    execAll (ws.map Instr.pushw) s = .next (ws.foldl pushwState s) := by
  induction ws generalizing s with
  | nil => rfl
  | cons w ws ih => simp [execAll, exec_pushw, ih]

/-- Settles O58: PUSHWs commute (`pushwEffect_comm`), so only the words pushed count, and an interleaving
is a permutation of the one list followed by the other. -/
theorem twoMastersWordsJoinOneSum : Obligations.TwoMastersWordsJoinOneSum := by
  intro xs ys zs s h
  have hcomm : RightCommutative pushwState :=
    ⟨fun s v w => State.busWrite_comm (pushwEffect_comm v w) s⟩
  exact ⟨_, execAll_pushw zs s, by rw [execAll_pushw, h.perm.foldl_eq]⟩

/-! ### The observation that ends a computation (R38) -/

/-- What a transaction lets the host observe, in terms of the registers: RESULT if it reads it while DONE,
MATCH if it reads STATUS while MVALID. -/
def regsObservation (i : Instr) (r : Regs) : Option Observation :=
  if i = .rdResult ∧ r.done = true then some (.code r.result)
  else if i = .rdStatus ∧ r.mvalid = true then some (.verdict r.matched)
  else none

/-- The observation, taken from the word that the transaction returned, is that of the registers. -/
theorem observation_of_exec {i : Instr} {s t : State} (h : exec i s = .next t) :
    t.rdata.bind (observation i s.view) = regsObservation i s.view := by
  cases i
  case rdResult =>
    cases h
    have hword : (s.view.readWord .result).extractLsb' 0 16 = s.view.result :=
      BitVec.eq_of_toNat_eq (by simpa [Regs.readWord] using s.view.result.isLt)
    simp [observation, regsObservation, hword]
  case rdStatus =>
    cases h
    obtain ⟨_, _, _, hmatched, _⟩ := s.view.statusWord_flags
    simp only [State.busRead_rdata, Option.bind_some, observation, Regs.readWord, hmatched]
    simp [regsObservation]
  all_goals cases t.rdata <;> simp [observation, regsObservation]

theorem regsObservation_some {i : Instr} {r : Regs} {o : Observation}
    (h : regsObservation i r = some o) :
    (i = .rdResult ∧ r.done = true ∧ o = .code r.result) ∨
    (i = .rdStatus ∧ r.mvalid = true ∧ o = .verdict r.matched) := by
  unfold regsObservation at h
  split at h
  · next hread => exact .inl ⟨hread.1, hread.2, (Option.some.inj h).symm⟩
  · split at h
    · next hread => exact .inr ⟨hread.1, hread.2, (Option.some.inj h).symm⟩
    · cases h

/-- Only reads observe. -/
theorem command?_of_regsObservation {i : Instr} {r : Regs} {o : Observation}
    (h : regsObservation i r = some o) : i.command? = none := by
  rcases regsObservation_some h with ⟨rfl, _⟩ | ⟨rfl, _⟩ <;> rfl

/-- The value the observation of a history is to have: the code of the bytes pushed (R67), or the verdict
of the latest VERIFY (R68). -/
def Observation.IsReference (h : History) : Observation → Prop
  | .code c => c = compute h.pushed
  | .verdict m => ∃ c, h.expected = some c ∧ m = verify h.pushed c

theorem Holds.isReference {h : History} {r : Regs} {i : Instr} {o : Observation} (hold : Holds h r)
    (ho : regsObservation i r = some o) : o.IsReference h := by
  rcases regsObservation_some ho with ⟨_, hdone, rfl⟩ | ⟨_, hmvalid, rfl⟩
  · exact hold.result hdone
  · exact hold.verdict hmvalid

theorem History.instr_of_no_command {i : Instr} (hi : i.command? = none) (h : History) :
    h.instr i = h := by
  simp [History.instr, hi]

theorem History.instr_clr {i : Instr} (hi : i.command? = some .clr) (h : History) :
    h.instr i = History.start := by
  simp [History.instr, hi, History.command]

theorem Computation.correct_iff {k : Computation} :
    k.Correct ↔ ∀ o, k.observed = some o → o.IsReference k.history := by
  constructor
  · intro hk o ho
    cases o with
    | code c => exact hk.code c ho
    | verdict m => exact hk.verdict m ho
  · exact fun hk => { code := fun c => hk (.code c), verdict := fun m => hk (.verdict m) }

theorem Computation.correct_of_unobserved {k : Computation} (h : k.observed = none) : k.Correct :=
  Computation.correct_iff.2 fun o ho => by simp [h] at ho

/-- The induction's predicate: what the computation `k` has observed is right, and as long as it has
observed nothing, the registers hold its history. -/
structure Computation.Tracks (k : Computation) (r : Regs) : Prop where
  correct : k.Correct
  holds : k.observed = none → Holds k.history r

theorem Computation.tracks_start : Computation.start.Tracks Regs.reset :=
  ⟨Computation.correct_of_unobserved rfl, fun _ => Holds.start⟩

/-- A transaction keeps `Tracks`: CLR starts a computation anew, after the end nothing joins, and any other
transaction joins, observing what the registers hold of the history so far. -/
theorem Computation.Tracks.txn {k : Computation} {r : Regs} {x : Txn} {w : Option Word}
    (hk : k.Tracks r) (hw : w.bind (observation (decodeTxn x) r) = regsObservation (decodeTxn x) r) :
    (k.txn x r w).Tracks (instrEffect (decodeTxn x) r) := by
  by_cases hclr : (decodeTxn x).command? = some .clr
  · rw [Computation.txn_clr hclr]
    refine ⟨Computation.correct_of_unobserved rfl, fun _ => ?_⟩
    rw [instrEffect_of_command hclr]
    have hstart : Computation.history { txns := [x], observed := none } = History.start :=
      History.instr_clr hclr History.start
    exact hstart ▸ Holds.start
  cases ho : k.observed with
  | some o =>
    rw [Computation.txn_ended hclr ho]
    exact ⟨hk.correct, fun hnone => by simp [ho] at hnone⟩
  | none =>
    have hold := hk.holds ho
    have hhistory (o : Option Observation) :
        Computation.history { txns := k.txns ++ [x], observed := o } =
          k.history.instr (decodeTxn x) := Computation.history_append k.txns x o k.observed
    rw [Computation.txn_joins hclr ho, hw]
    refine ⟨Computation.correct_iff.2 fun o hobs => ?_, fun _ => ?_⟩
    · rw [hhistory, History.instr_of_no_command (command?_of_regsObservation hobs)]
      exact hold.isReference hobs
    · rw [hhistory]
      exact hold.instrEffect (decodeTxn x)

theorem ecause_ne_of_step {s t : State} (h : step s = .next t) : s.view.ecause ≠ causeReserved := by
  rcases step_inversion s with ⟨_, hfault⟩ | ⟨hcause, _⟩
  · simp [h] at hfault
  · exact hcause

/-- The word a step leaves shows the observation of the transaction it took, in the registers the bus
saw. -/
theorem observation_of_step {s t : State} {c : BusCycle} {rest : List BusCycle} {x : Txn}
    (hq : s.queue = c :: rest) (hr : c.reset = false) (hx : c.txn = some x) (h : step s = .next t) :
    t.rdata.bind (observation (decodeTxn x) s.view) = regsObservation (decodeTxn x) s.view := by
  have hview : (s.takeCycle c rest).view = s.view := by simp [State.takeCycle_view, hr]
  rw [step_of_txn (ecause_ne_of_step h) hq hx] at h
  exact hview ▸ observation_of_exec h

theorem Computation.Tracks.cycle {k : Computation} {s t : State} {c : BusCycle} {rest : List BusCycle}
    (hk : k.Tracks s.view) (hq : s.queue = c :: rest) (h : step s = .next t) :
    (k.cycle c s t).Tracks t.view := by
  rw [step_cycle_view hq h]
  cases hr : c.reset
  · cases hx : c.txn with
    | none => rwa [Computation.cycle_idle hr hx, cycleEffect_idle hr hx]
    | some x =>
      rw [Computation.cycle_txn hr hx, cycleEffect_txn hr hx]
      exact hk.txn (observation_of_step hq hr hx h)
  · rw [Computation.cycle_reset hr, cycleEffect_reset hr]
    exact Computation.tracks_start

theorem Computation.after_correct (n : Nat) {s : State} {k : Computation} (hk : k.Tracks s.view) :
    (Computation.after n s k).Correct := by
  induction n generalizing s k with
  | zero => exact hk.correct
  | succ n ih =>
    unfold Computation.after
    split
    · next hq ht => exact ih (hk.cycle hq ht)
    · exact hk.correct

/-- An ended computation stays as it is until CLR or reset starts another. -/
theorem Computation.cycle_ended {k : Computation} {c : BusCycle} (ho : k.observed ≠ none)
    (hr : c.reset = false) (hx : ∀ x, c.txn = some x → (decodeTxn x).command? ≠ some .clr)
    (s t : State) : k.cycle c s t = k := by
  obtain ⟨o, ho⟩ := Option.ne_none_iff_exists'.1 ho
  cases hc : c.txn with
  | none => exact Computation.cycle_idle hr hc s t k
  | some x => rw [Computation.cycle_txn hr hc, Computation.txn_ended (hx x hc) ho]

/-- A computation in progress observes what its transaction observes; CLR observes nothing. -/
theorem Computation.txn_observed {k : Computation} {x : Txn} {r : Regs} {w : Option Word}
    (ho : k.observed = none)
    (hw : w.bind (observation (decodeTxn x) r) = regsObservation (decodeTxn x) r) :
    (k.txn x r w).observed = regsObservation (decodeTxn x) r := by
  by_cases hclr : (decodeTxn x).command? = some .clr
  · rw [Computation.txn_clr hclr]
    cases hobs : regsObservation (decodeTxn x) r with
    | none => rfl
    | some o => simp [command?_of_regsObservation hobs] at hclr
  · rw [Computation.txn_joins hclr ho, hw]

/-- Settles O57: a transaction's observation is that of the registers (`observation_of_exec`), which hold
the history. For the runs, `Computation.Tracks` holds at reset and every step keeps it. -/
theorem observationIsTheReferenceValue : Obligations.ObservationIsTheReferenceValue := by
  refine ⟨?observation, ?ending, ?ended, ?step, ?run⟩
  case observation =>
    intro h i s hrun hold
    obtain ⟨t, ht, _⟩ := exec_spec i s
    refine ⟨t, ht, fun w hw => ?_⟩
    have hobs : observation i s.regs w = regsObservation i s.regs := by
      simpa [hw, State.view_of_running hrun] using observation_of_exec ht
    rw [hobs]
    exact ⟨fun c => hold.isReference, fun m => hold.isReference⟩
  case ending =>
    intro k x rest s t ho hq ht
    rw [Computation.cycle_txn rfl rfl, Computation.txn_observed ho (observation_of_step hq rfl rfl ht)]
    rfl
  case ended => exact fun k c s t ho hr hx => Computation.cycle_ended ho hr hx s t
  case step =>
    intro k c rest s t hk hold hq ht
    obtain ⟨hcorrect, hholds⟩ := Computation.Tracks.cycle ⟨hk, hold⟩ hq ht
    exact ⟨hcorrect, hholds⟩
  case run => exact fun cs => Computation.after_correct _ Computation.tracks_start

end Sys2Proof.Machine
end

section
/-! SUPPORT. Proofs of the statements on encoding (30_encoding.md): the OP and DATA fields of a command
word, the decoder by OP, the opcode map and the ignored bits, the assembler's words, and the expansions of
the pseudo-instructions. -/

namespace Sys2Proof

/-! ### The decoder by OP (R48) -/

/-- Settles O27: for each value of OP by the decoder's own row. From 8 on no row but the last is left. -/
theorem decoderByOpcode : Obligations.DecoderByOpcode := by
  intro d
  unfold decodeCommand opField
  generalize d.extractLsb' 28 4 = op
  refine ⟨?nop, ?clr, ?pushb, ?pushw, ?final, ?verify, ?low, ?high⟩
  case low => rintro (rfl | rfl) <;> rfl
  case high =>
    intro h
    have hge : 8 ≤ op.toNat := by simpa [BitVec.le_def] using h
    split
    case h_9 => rfl
    all_goals omega
  all_goals rintro rfl; rfl

/-- Settles O33: the decoder evaluated on the eight words. -/
theorem wordsOfTheAssemblerTable : Obligations.WordsOfTheAssemblerTable := by
  unfold Obligations.WordsOfTheAssemblerTable
  decide

theorem decodeCommand_encodeCommand {c : Command} (hwf : c.toInstr.wf = true) :
    decodeCommand (encodeCommand c) = c := by
  cases c
  case illegalLow op =>
    have hop : op = 0x6#4 ∨ op = 0x7#4 := by
      simpa [Command.toInstr, Instr.wf, opInLowIllegalRow] using hwf
    rcases hop with rfl | rfl <;> rfl
  case illegalHigh op =>
    have hop : 0x8#4 ≤ opField (commandWord op 0#16) := by
      simpa [Command.toInstr, Instr.wf, opInHighIllegalRow] using hwf
    obtain ⟨_, _, _, _, _, _, _, hhigh⟩ := decoderByOpcode (commandWord op 0#16)
    exact (hhigh hop).trans (congrArg _ (opField_commandWord op 0#16))
  all_goals simp [encodeCommand, decodeCommand]

/-! ### Frames -/

theorem encode_toInstr (c : Command) : encode c.toInstr = bytesOfWord (encodeCommand c) := by
  cases c <;> rfl

theorem decode_encode_command {c : Command} (hwf : c.toInstr.wf = true) :
    decode (encode c.toInstr) = .ok c.toInstr := by
  simp [encode_toInstr, decode, parseFrame_bytesOfWord, Frame.instr, decodeCommand_encodeCommand hwf]

theorem decode_readHead (a : BusReg) : decode [readHead a] = .ok a.readInstr := by
  cases a <;> rfl

theorem parseFrame_writeHead (a : BusReg) (d : Word) :
    parseFrame (writeHead a :: bytesOfWord d) = .ok (.transfer (.write a.index d)) := by
  have hrange : headInRange (writeHead a) = true := by cases a <;> rfl
  have hwrite : headIsWrite (writeHead a) = true := by cases a <;> rfl
  have hindex : headIndex (writeHead a) = a.index := by cases a <;> rfl
  simp [parseFrame, bytesOfWord, hrange, hwrite, hindex]

theorem decode_writeHead (a : BusReg) (d : Word) :
    decode (writeHead a :: bytesOfWord d) = .ok (a.writeInstr d) := by
  rw [decode, parseFrame_writeHead]
  cases a <;> rfl

/-- Settles O31: a command word goes back to its command (`decodeCommand_encodeCommand`), and the head of a
transfer to its direction and register. -/
theorem decodeOfEncode : Obligations.DecodeOfEncode := by
  intro i hwf
  cases i
  case nop => exact decode_encode_command (c := .nop) hwf
  case clr => exact decode_encode_command (c := .clr) hwf
  case pushb b => exact decode_encode_command (c := .pushb b) hwf
  case pushw w => exact decode_encode_command (c := .pushw w) hwf
  case final => exact decode_encode_command (c := .final) hwf
  case verify c => exact decode_encode_command (c := .verify c) hwf
  case illegalLow op => exact decode_encode_command (c := .illegalLow op) hwf
  case illegalHigh op => exact decode_encode_command (c := .illegalHigh op) hwf
  case rdCmd => exact decode_readHead .cmd
  case rdStatus => exact decode_readHead .status
  case rdAcc => exact decode_readHead .acc
  case rdResult => exact decode_readHead .result
  case wrCmd d => exact decode_writeHead .cmd d
  case wrStatus d => exact decode_writeHead .status d
  case wrAcc d => exact decode_writeHead .acc d
  case wrResult d => exact decode_writeHead .result d

/-! ### The fields of a command word, and its used bits (R41, R42) -/

/-- The OP of a command's word. -/
def Command.op : Command → BitVec 4
  | .nop => 0x0#4
  | .clr => 0x1#4
  | .pushb _ => 0x2#4
  | .pushw _ => 0x3#4
  | .final => 0x4#4
  | .verify _ => 0x5#4
  | .illegalLow op | .illegalHigh op => op

/-- The DATA of a command's word. -/
def Command.data : Command → Half
  | .pushb b => 0#8 ++ b
  | .pushw w => w
  | .verify c => c
  | .nop | .clr | .final | .illegalLow _ | .illegalHigh _ => 0#16

/-- The DATA bits that the engine looks at under a command (R41). -/
def Command.dataMask : Command → Half
  | .pushb _ => 0x00FF#16
  | .pushw _ | .verify _ => 0xFFFF#16
  | .nop | .clr | .final | .illegalLow _ | .illegalHigh _ => 0x0000#16

theorem encodeCommand_eq (c : Command) : encodeCommand c = commandWord c.op c.data := by
  cases c <;> rfl

theorem Command.usedBits_eq (c : Command) : c.usedBits = commandWord 0xF#4 c.dataMask := by
  cases c <;> simp only [usedBits, dataMask] <;> decide

/-- A mask of OP and some DATA bits clears the reserved field and the other DATA bits. -/
theorem and_commandWord (d : Word) (m : Half) :
    d &&& commandWord 0xF#4 m = commandWord (opField d) (dataField d &&& m) := by
  have hones : ∀ k < 4, (0xF#4).getLsbD k = true := by decide
  apply BitVec.eq_of_getLsbD_eq
  intro i hi
  simp only [commandWord, opField, dataField, BitVec.getLsbD_and, BitVec.getLsbD_append,
    BitVec.getLsbD_extractLsb']
  split
  · simp [*]
  · split
    · simp
    · rw [hones _ (by omega)]
      simp [show i - 16 - 12 < 4 by omega, show 28 + (i - 16 - 12) = i by omega]

theorem and_usedBits (d : Word) (c : Command) :
    d &&& c.usedBits = commandWord (opField d) (dataField d &&& c.dataMask) := by
  rw [c.usedBits_eq, and_commandWord]

theorem dataField_and_byteMask (d : Word) : dataField d &&& 0x00FF#16 = 0#8 ++ byteField d := by
  have hones : ∀ k < 8, (0x00FF#16).getLsbD k = true := by decide
  have hzeros : ∀ k < 16, ¬k < 8 → (0x00FF#16).getLsbD k = false := by decide
  apply BitVec.eq_of_getLsbD_eq
  intro i hi
  simp only [dataField, byteField, BitVec.getLsbD_and, BitVec.getLsbD_append,
    BitVec.getLsbD_extractLsb']
  split
  · next hlow => simp [hones i hlow, hi, hlow]
  · next hhigh => simp [hzeros i hi hhigh]

theorem op_decodeCommand (d : Word) : (decodeCommand d).op = opField d := by
  unfold decodeCommand
  split
  case h_7 | h_8 | h_9 => rfl
  all_goals next h => exact BitVec.eq_of_toNat_eq h.symm

theorem data_decodeCommand (d : Word) :
    (decodeCommand d).data = dataField d &&& (decodeCommand d).dataMask := by
  unfold decodeCommand
  split
  case h_3 => exact (dataField_and_byteMask d).symm
  case h_4 | h_6 => exact BitVec.and_allOnes.symm
  all_goals exact BitVec.and_zero.symm

/-- Settles O30: word and encoding have the same OP and the same used DATA bits. -/
theorem encodeAfterDecodeClearsIgnoredBits : Obligations.EncodeAfterDecodeClearsIgnoredBits := by
  intro d
  rw [encodeCommand_eq, op_decodeCommand, data_decodeCommand, and_usedBits]

theorem Command.data_and_dataMask (c : Command) : c.data &&& c.dataMask = c.data := by
  cases c
  case pushb b => simpa [data, dataMask] using dataField_and_byteMask (commandWord 0x2#4 (0#8 ++ b))
  case pushw | verify => exact BitVec.and_allOnes
  all_goals exact BitVec.and_zero

theorem encodeCommand_and_usedBits (c : Command) : encodeCommand c &&& c.usedBits = encodeCommand c := by
  rw [and_usedBits, encodeCommand_eq, opField_commandWord, dataField_commandWord, c.data_and_dataMask]

/-- The row of a decoded command, and which bits it uses, depend on OP alone (R40). -/
theorem row_and_usedBits_of_opField {d d' : Word} (h : opField d' = opField d) :
    (decodeCommand d').row = (decodeCommand d).row ∧
      (decodeCommand d').usedBits = (decodeCommand d).usedBits := by
  simp only [decodeCommand, h]
  split <;> exact ⟨rfl, rfl⟩

/-- Words that agree on the used bits have the same encoding once decoded, which determines the command. -/
theorem decodeCommand_eq_of_usedBits {d d' : Word}
    (h : d &&& (decodeCommand d).usedBits = d' &&& (decodeCommand d).usedBits) :
    decodeCommand d' = decodeCommand d := by
  have hop : opField d' = opField d := by
    simpa [and_usedBits] using (congrArg opField h).symm
  have henc : encodeCommand (decodeCommand d') = encodeCommand (decodeCommand d) := by
    rw [encodeAfterDecodeClearsIgnoredBits, encodeAfterDecodeClearsIgnoredBits,
      (row_and_usedBits_of_opField hop).2, h]
  rw [← decodeCommand_encodeCommand (decodeCommand_wf d'), henc,
    decodeCommand_encodeCommand (decodeCommand_wf d)]

/-- Settles O29: the used bits determine the command (`decodeCommand_eq_of_usedBits`), and an encoded word
has no bit outside them (`encodeCommand_and_usedBits`). -/
theorem ignoredBitsAreIgnored : Obligations.IgnoredBitsAreIgnored := by
  refine ⟨fun d d' h => ?_, fun c => ?_⟩
  · have hcommand := decodeCommand_eq_of_usedBits h
    refine ⟨hcommand, fun s => ?_⟩
    rw [Machine.exec_of_command rfl, Machine.exec_of_command rfl, hcommand]
  · rw [← encodeCommand_and_usedBits, BitVec.and_assoc, BitVec.and_not_self]
    exact BitVec.and_zero

/-! ### The opcode map (R43) -/

theorem hits_commandWord_opField (d : Word) {row : OpcodeRow} (h : row ∈ opcodeMap) :
    row.hits (commandWord (opField d) 0#16) = row.hits d := by
  have hmask : ∀ row ∈ opcodeMap, commandWord 0xF#4 0#16 &&& row.mask = row.mask := by decide
  have hop : commandWord (opField d) 0#16 = d &&& commandWord 0xF#4 0#16 := by
    rw [and_commandWord, BitVec.and_zero]
  rw [OpcodeRow.hits, OpcodeRow.hits, hop, BitVec.and_assoc, hmask row h]

/-- The table on the sixteen words that are an OP and zeros. -/
theorem opcodeMap_of_op (op : BitVec 4) :
    (decodeCommand (commandWord op 0#16)).row ∈ opcodeMap ∧ ∀ row ∈ opcodeMap,
      row.hits (commandWord op 0#16) = true ↔ row = (decodeCommand (commandWord op 0#16)).row := by
  revert op
  decide

/-- Settles O28: row and hits of a word are those of its OP alone, and for the sixteen values of OP they
are read off the table. -/
theorem opcodeRowsPartitionTheWords : Obligations.OpcodeRowsPartitionTheWords := by
  intro d
  have hrow : (decodeCommand (commandWord (opField d) 0#16)).row = (decodeCommand d).row :=
    (row_and_usedBits_of_opField (opField_commandWord _ _)).1
  obtain ⟨hmem, hhits⟩ := opcodeMap_of_op (opField d)
  rw [hrow] at hmem hhits
  exact ⟨hmem, fun row h => hits_commandWord_opField d h ▸ hhits row h⟩

end Sys2Proof

namespace Sys2Proof.Machine

/-! ### The assembler's words (R46) -/

/-- A command word is the word of its OP with the DATA in the low bits. -/
theorem commandWord_eq_or (op : BitVec 4) (data : Half) :
    commandWord op data = commandWord op 0#16 ||| data.setWidth 32 := by
  apply BitVec.eq_of_getLsbD_eq
  intro i hi
  simp only [commandWord, BitVec.getLsbD_or, BitVec.getLsbD_append, BitVec.getLsbD_setWidth]
  split
  · simp [*]
  · simp [BitVec.getLsbD_of_ge data i (by omega)]

theorem commandWord_ofNat (op : BitVec 4) {n : Nat} (h : n < 2 ^ 16) :
    commandWord op (BitVec.ofNat 16 n) = commandWord op 0#16 ||| BitVec.ofNat 32 n := by
  rw [commandWord_eq_or, BitVec.setWidth_ofNat_of_le_of_lt (by decide) h]

theorem zero_append_ofNat {n : Nat} (h : n < 2 ^ 8) :
    (0#8 : Byte) ++ BitVec.ofNat 8 n = BitVec.ofNat 16 n := by
  apply BitVec.eq_of_toNat_eq
  rw [byte_append_toNat]
  simp only [BitVec.toNat_ofNat]
  omega

/-- Settles O34: an immediate in range gives the row's word with the immediate in the low bits
(`commandWord_ofNat`), any other one is the error. -/
theorem assemblerWordsAndRanges : Obligations.AssemblerWordsAndRanges := by
  refine ⟨rfl, rfl, rfl, fun n h => ?pushb, fun n h => ?pushw, fun n h => ?verify,
    fun n h => if_pos h, fun n h => ⟨if_pos h, if_pos h, if_pos h⟩, rfl, rfl, rfl, rfl,
    fun n h => if_neg (by omega), fun n h => ⟨if_neg (by omega), if_neg (by omega)⟩,
    fun n h => ⟨if_neg (by omega), fun _ => if_neg (by omega)⟩⟩
  case pushb =>
    rw [assemble, if_pos (by omega), encodeCommand, zero_append_ofNat (by omega),
      commandWord_ofNat _ (by omega)]
    rfl
  case pushw | verify =>
    rw [assemble, if_pos (by omega), encodeCommand, commandWord_ofNat _ (by omega)]
    rfl

/-! ### Runs of pushes (R47, R64) -/

theorem State.busWrite_busWrite (s : State) (f g : Regs → Regs) :
    (s.busWrite f).busWrite g = s.busWrite fun r => g (f r) := by
  cases h : s.resetIn
  · simp [State.busWrite_of_running, h]
  · simp [State.busWrite_in_reset, h]

theorem State.busWrite_id (s : State) : s.busWrite (fun r => r) = s := by
  simp [State.busWrite]

theorem execAll_cons {i : Instr} {s t : State} (h : exec i s = .next t) (is : List Instr) :
    execAll (i :: is) s = execAll is t := by
  simp [execAll, h]

theorem execAll_append {is : List Instr} {s t : State} (h : execAll is s = .next t) (js : List Instr) :
    execAll (is ++ js) s = execAll js t := by
  induction is generalizing s with
  | nil =>
    obtain rfl : s = t := by simpa [execAll] using h
    rfl
  | cons i is ih =>
    obtain ⟨u, hu, _⟩ := exec_spec i s
    rw [execAll_cons hu] at h
    rw [List.cons_append, execAll_cons hu, ih h]

/-- The effect of pushing the bytes of a payload one after the other. -/
def pushAll (p : List Byte) (r : Regs) : Regs := p.foldl (fun r b => pushbEffect b r) r

theorem pushAll_cons (b : Byte) (p : List Byte) (r : Regs) :
    pushAll (b :: p) r = pushAll p (pushbEffect b r) := rfl

theorem pushwEffect_append (b1 b0 : Byte) (r : Regs) :
    pushwEffect (b1 ++ b0) r = pushbEffect b0 (pushbEffect b1 r) := by
  have hearlier : earlierByte (b1 ++ b0) = b1 := BitVec.extractLsb'_append_eq_left
  have hlater : laterByte (b1 ++ b0) = b0 := BitVec.extractLsb'_append_eq_right
  rw [pushwEffect_eq_pushb_pushb, hearlier, hlater]

theorem execAll_pushb (p : List Byte) (s : State) :
    execAll (p.map Instr.pushb) s = .next (s.busWrite (pushAll p)) := by
  induction p generalizing s with
  | nil => exact congrArg _ s.busWrite_id.symm
  | cons b p ih =>
    rw [List.map_cons, execAll_cons (exec_of_command rfl s), ih, State.busWrite_busWrite]
    rfl

/-- The expansion of PUSHBYTES has the effect of pushing every byte. -/
theorem execAll_pushBytes (p : List Byte) (s : State) :
    execAll (pushBytes p) s = .next (s.busWrite (pushAll p)) := by
  induction p using pushBytes.induct generalizing s with
  | case1 => exact congrArg _ s.busWrite_id.symm
  | case2 b => exact execAll_pushb [b] s
  | case3 b1 b0 rest ih =>
    rw [pushBytes, execAll_cons (exec_of_command rfl s), ih, State.busWrite_busWrite]
    simp only [commandEffect_pushw, pushwEffect_append]
    rfl

/-- Settles O53: both runs have the effect `pushAll`. -/
theorem pushBytesPushesExactlyItsBytes : Obligations.PushBytesPushesExactlyItsBytes :=
  fun p s => ⟨_, execAll_pushBytes p s, execAll_pushb p s⟩

/-! ### CSUM and CHECK -/

/-- Pushed bytes join the history's. -/
theorem Holds.pushAll {h : History} {r : Regs} (hold : Holds h r) (p : List Byte) :
    Holds { h with pushed := h.pushed ++ p } (pushAll p r) := by
  induction p generalizing h r with
  | nil => simpa [Machine.pushAll] using hold
  | cons b p ih => simpa [History.command, pushAll_cons] using ih (hold.pushb b)

theorem pushAll_err (p : List Byte) (r : Regs) : (pushAll p r).err = r.err := by
  induction p generalizing r with
  | nil => rfl
  | cons b p ih => rw [pushAll_cons, ih]; rfl

theorem holds_pushAll_reset (p : List Byte) :
    Holds { pushed := p, expected := none } (pushAll p Regs.reset) :=
  Holds.start.pushAll p

/-- The expansions of R47 from any state: CLR forgets the registers, the payload is pushed from the reset
values, and the last command acts on the sum. -/
theorem execAll_clr_pushBytes (p : List Byte) {i : Instr} {c : Command} (hi : i.command? = some c)
    {s : State} (hrun : s.resetIn = false) :
    execAll (.clr :: pushBytes p ++ [i]) s =
      .next { s with regs := commandEffect c (pushAll p Regs.reset) } := by
  have hpush : execAll (.clr :: pushBytes p) s = .next (s.busWrite fun _ => pushAll p Regs.reset) := by
    rw [execAll_cons (exec_of_command rfl s), execAll_pushBytes, State.busWrite_busWrite]
    rfl
  rw [execAll_append hpush, execAll_cons (exec_of_command hi _), State.busWrite_busWrite,
    State.busWrite_of_running _ hrun]
  rfl

/-- Settles O54: after CLR the pushes hold the payload as history (`holds_pushAll_reset`), FINAL latches the
complement of its sum, and the read returns that. -/
theorem csumComputesTheCode : Obligations.CsumComputesTheCode := by
  intro p s hrun
  have hold := holds_pushAll_reset p
  have hrunCsum := execAll_clr_pushBytes p (i := .final) rfl hrun
  refine ⟨_, (execAll_append hrunCsum _).trans (execAll_cons (exec_readInstr .result _) []), ?_⟩
  refine ⟨?_, hold.not_acc, rfl, rfl, (pushAll_err p _), hold.phase, rfl⟩
  have hview := State.view_of_running
    (s := { s with regs := commandEffect .final (pushAll p Regs.reset) }) hrun
  rw [State.busRead_rdata, hview]
  exact congrArg (fun w => some (w.setWidth 32)) hold.not_acc

/-- Settles O55: after CLR the pushes hold the payload as history (`holds_pushAll_reset`), and VERIFY
compares the complement of its sum. -/
theorem checkVerifiesThePayload : Obligations.CheckVerifiesThePayload := by
  intro c p s hrun
  have hold := holds_pushAll_reset p
  exact ⟨_, execAll_clr_pushBytes p (i := .verify c) rfl hrun, congrArg (· == c) hold.not_acc, rfl, rfl,
    hold.not_acc, pushAll_err p _, rfl⟩

end Sys2Proof.Machine
end

section
/-! SUPPORT. Proofs of the statements on the checksum function (40_checksum_function.md): the words and
their sum, the fold and its closed form, and which changes of a payload change the code. -/

namespace Sys2Proof.Machine

/-! ### The words of a payload (R50, R51) -/

theorem payloadByte_of_lt {p : List Byte} {i : Nat} (h : i < p.length) : payloadByte p i = p[i] := by
  simp [payloadByte, h]

/-- Settles O35: the two cases of `wordAt`, with the bytes inside the payload. -/
theorem payloadWordsAreBigEndianAndPadded : Obligations.PayloadWordsAreBigEndianAndPadded := by
  refine ⟨fun p k h => ?_, fun p h => ?_⟩
  · have hword : wordAt p k = p[2 * k] ++ p[2 * k + 1] := by
      rw [wordAt, if_pos h, payloadByte_of_lt h, payloadByte_of_lt (by omega)]
    exact ⟨hword, by rw [hword, byte_append_toNat]⟩
  · have hlast : 2 * (wordCount p - 1) = p.length - 1 := by rw [wordCount]; omega
    rw [wordAt, if_neg (by omega), hlast, payloadByte_of_lt (by omega)]

/-! ### The sum and the fold (R52, R56) -/

theorem wordSum_le (p : List Byte) : wordSum p ≤ wordCount p * 0xFFFF := by
  have hword : ∀ n ∈ (List.range (wordCount p)).map fun k => (wordAt p k).toNat, n ≤ 0xFFFF := by
    intro n hn
    obtain ⟨k, -, rfl⟩ := List.mem_map.mp hn
    have := (wordAt p k).isLt
    omega
  simpa [wordSum] using List.sum_le_card_nsmul _ _ hword

theorem fold_of_lt {s : Nat} (h : s < 0x10000) : fold s = s := by
  rw [fold_eq, if_neg (by omega)]

/-- R56 for every sum. The bound, the residue and the positivity of R52 are read off it. -/
theorem fold_closed_form (s : Nat) : fold s = if s = 0 then 0 else (s - 1) % 0xFFFF + 1 := by
  split
  case isTrue h => rw [h, fold_zero]
  case isFalse h => exact fold_of_pos (by omega)

theorem foldPasses_two {s : Nat} (h : s ≤ 0xFFFF00) : foldPasses 2 s = fold s := by
  rw [fold_eq, foldPasses, foldPasses, foldPasses]
  split
  case isFalse => rfl
  case isTrue =>
    rw [fold_eq]
    split
    case isFalse => rfl
    case isTrue => exact (fold_of_lt (by omega)).symm

/-- Settles O37: `fold_zero` and `fold_of_pos`. -/
theorem foldClosedForm : Obligations.FoldClosedForm := ⟨fold_zero, fun _ => fold_of_pos⟩

/-- Settles O36: `fold_eq` is the loop, and what the loop ends in is read off the closed form. -/
theorem foldIsTheEndAroundCarryLoop : Obligations.FoldIsTheEndAroundCarryLoop := by
  refine ⟨wordSum_eq_wordsOf, fun s => fold_of_lt, fun s h => ⟨?pass, fold_pass_lt h⟩, fun s => ?result,
    fun p hp => ?segment⟩
  case pass => rw [fold_eq, if_pos h]
  case result =>
    rw [fold_closed_form]
    split <;> omega
  case segment =>
    have hsum := wordSum_le p
    have hcount : wordCount p ≤ 256 := by rw [wordCount]; omega
    have hbound : wordSum p ≤ 0xFFFF00 := by omega
    exact ⟨hbound, (foldPasses_two hbound).symm⟩

/-! ### The code (R53, R57) -/

theorem compute_toNat (p : List Byte) : (compute p).toNat = 0xFFFF - fold (wordSum p) := by
  have hle : fold (wordSum p) < 2 ^ 16 := by
    rw [fold_closed_form]
    split <;> omega
  rw [compute, BitVec.toNat_not, BitVec.toNat_ofNat, Nat.mod_eq_of_lt hle]

/-- The code determines the sum up to multiples of 0xFFFF and whether it is zero, and nothing else. -/
theorem compute_eq_iff (p q : List Byte) :
    compute p = compute q ↔
      wordSum p % 0xFFFF = wordSum q % 0xFFFF ∧ (wordSum p = 0 ↔ wordSum q = 0) := by
  rw [← BitVec.toNat_inj, compute_toNat, compute_toNat, fold_closed_form, fold_closed_form]
  split <;> split <;> omega

theorem wordSum_eq_zero_iff (p : List Byte) : wordSum p = 0 ↔ ∀ b ∈ p, b = 0x00#8 := by
  have hbyte : ∀ b : Byte, b.toNat = 0 ↔ b = 0x00#8 := fun b => BitVec.toNat_inj (y := 0x00#8)
  induction p using wordsOf.induct with
  | case1 => simp [wordSum_nil]
  | case2 b => simp [wordSum_singleton, hbyte]
  | case3 b1 b0 rest ih => simp [wordSum_cons_cons, hbyte, ih, and_assoc]

theorem wordSum_bytesOfHalf (w : Half) : wordSum (bytesOfHalf w) = w.toNat := by
  have hbytes : bytesOfHalf w = [earlierByte w, laterByte w] := rfl
  rw [hbytes, wordSum_cons_cons, wordSum_nil, half_toNat w, Nat.add_zero]

/-- Every code arises, from one word: its complement. -/
theorem compute_bytesOfHalf_not (c : Half) : compute (bytesOfHalf (~~~c)) = c := by
  rw [compute, wordSum_bytesOfHalf, fold_of_lt (~~~c).isLt, BitVec.ofNat_toNat, BitVec.setWidth_eq,
    BitVec.not_not]

theorem compute_eq_ones_iff (p : List Byte) : compute p = 0xFFFF#16 ↔ wordSum p = 0 := by
  rw [← BitVec.toNat_inj, compute_toNat, fold_closed_form]
  simp only [BitVec.toNat_ofNat]
  split <;> omega

theorem compute_eq_zero_iff (p : List Byte) :
    compute p = 0x0000#16 ↔ 0 < wordSum p ∧ wordSum p % 0xFFFF = 0 := by
  rw [← BitVec.toNat_inj, compute_toNat, fold_closed_form]
  simp only [BitVec.toNat_ofNat]
  split <;> omega

/-- Settles O38: both special codes by the sum, and a payload for every code (`compute_bytesOfHalf_not`).
Any code but 0xFFFF is that of a positive sum, where the closed form applies. -/
theorem specialCodes : Obligations.SpecialCodes := by
  refine ⟨fun p => (compute_eq_ones_iff p).trans (wordSum_eq_zero_iff p), compute_eq_zero_iff, by decide,
    by decide, fun c _ _ => ⟨_, compute_bytesOfHalf_not c⟩, fun p _ hones => ?_⟩
  have hpos : 0 < wordSum p := Nat.pos_of_ne_zero (mt (compute_eq_ones_iff p).mpr hones)
  rw [compute_toNat, fold_of_pos hpos]

/-! ### Verification (R54, R55) -/

/-- Settles O39: `verify` is the equality with the payload's own code. -/
theorem verifyAcceptsExactlyTheCode : Obligations.VerifyAcceptsExactlyTheCode := by
  have hverify : ∀ (p : List Byte) (c : Half), verify p c = true ↔ c = compute p := by
    intro p c
    rw [verify, beq_iff_eq, eq_comm]
  exact ⟨fun p => (hverify p _).mpr rfl, hverify⟩

/-! ### Detected changes (R58 (a), (c)) -/

/-- What a byte at index `i` counts for in the word sum: the earlier byte of a word is its high half. -/
def byteWeight (i : Nat) : Nat := if i % 2 = 0 then 256 else 1

theorem byteWeight_add_two (i : Nat) : byteWeight (i + 2) = byteWeight i := by
  rw [byteWeight, byteWeight, Nat.add_mod_right]

/-- Replacing a byte changes the sum by the bytes' difference times the weight. -/
theorem wordSum_set {p : List Byte} {i : Nat} (h : i < p.length) (b : Byte) :
    wordSum (p.set i b) + (payloadByte p i).toNat * byteWeight i =
      wordSum p + b.toNat * byteWeight i := by
  induction p using wordsOf.induct generalizing i with
  | case1 => simp at h
  | case2 a =>
    obtain rfl : i = 0 := by simpa using h
    simp [wordSum_singleton, byteWeight, Nat.add_comm]
  | case3 b1 b0 rest ih =>
    match i with
    | 0 => simp [wordSum_cons_cons, byteWeight]; omega
    | 1 => simp [wordSum_cons_cons, byteWeight]; omega
    | i + 2 =>
      have hi : i < rest.length := by simpa using h
      have := ih hi
      simp only [List.set_cons_succ, wordSum_cons_cons, payloadByte_cons_succ, byteWeight_add_two]
      omega

/-- Replacing one byte by any other is detected: the sum changes, by at most 255 * 256 < 0xFFFF. -/
theorem compute_set_ne {p : List Byte} {i : Nat} (h : i < p.length) {b : Byte}
    (hb : b ≠ payloadByte p i) : compute (p.set i b) ≠ compute p := by
  have hset := wordSum_set h b
  have hne : b.toNat ≠ (payloadByte p i).toNat := fun heq => hb (BitVec.eq_of_toNat_eq heq)
  have hnew := b.isLt
  have hold := (payloadByte p i).isLt
  rw [ne_eq, compute_eq_iff]
  unfold byteWeight at hset
  split at hset <;> omega

/-- Settles O40: the incremented byte is another one. -/
theorem byteIncrementIsDetected : Obligations.ByteIncrementIsDetected := by
  intro p i h
  exact compute_set_ne h (by simp)

/-- Settles O41: the byte with a bit flipped is another one. -/
theorem bitFlipIsDetected : Obligations.BitFlipIsDetected := by
  intro p i j h hj
  have hbit : 1#8 <<< j ≠ 0#8 := by
    revert j
    decide
  refine compute_set_ne h fun heq => hbit ?_
  simpa using heq

/-! ### Changes that are not detected (R58 (b)) -/

theorem compute_eq_of_wordSum_eq {p q : List Byte} (h : wordSum p = wordSum q) :
    compute p = compute q := by
  rw [compute, compute, h]

theorem wordSum_append_zeros (p : List Byte) (n : Nat) :
    wordSum (p ++ List.replicate n 0x00#8) = wordSum p := by
  induction n with
  | zero => simp
  | succ n ih =>
    rw [List.replicate_succ', ← List.append_assoc, wordSum_append_byte, ih]
    simp

/-- Settles O42: a permutation of the words and zero bytes at the end keep the sum, and a sum that stays
positive counts modulo 0xFFFF only (`compute_eq_iff`). -/
theorem blindSpots : Obligations.BlindSpots := by
  refine ⟨fun p q h => ?perm, fun p q hp hq h => ?residue, fun p q => compute_eq_of_wordSum_eq,
    fun p n => compute_eq_of_wordSum_eq (wordSum_append_zeros p n)⟩
  case perm =>
    apply compute_eq_of_wordSum_eq
    rw [wordSum_eq_wordsOf, wordSum_eq_wordsOf]
    exact (h.map _).sum_eq
  case residue => exact (compute_eq_iff p q).mpr ⟨h, by omega⟩

end Sys2Proof.Machine
end

section
/-! SUPPORT. Proofs of the statements on the accumulate commands (41_accumulate.md): the adder, PUSHB and
PUSHW, and what the registers hold of the bytes pushed. -/

namespace Sys2Proof.Machine

/-! ### The adder (R59) -/

/-- The carry of the 17-bit sum is added back into its low half. -/
theorem ocadd16_toNat_eq_pass (a x : Half) :
    (ocadd16 a x).toNat = (a.toNat + x.toNat) % 0x10000 + (a.toNat + x.toNat) / 0x10000 := by
  have ha := a.isLt
  have hx := x.isLt
  rw [ocadd16_toNat]
  split <;> omega

theorem ocadd16_eq_zero_iff (a x : Half) : ocadd16 a x = 0#16 ↔ a = 0#16 ∧ x = 0#16 := by
  simp only [← BitVec.toNat_inj, ocadd16_toNat, BitVec.toNat_ofNat]
  split <;> omega

/-- Settles O6: the sum is one pass of the fold (`ocadd16_toNat_eq_pass`), which ends it
(`ocadd16_toNat_eq_fold`); the corner cases are evaluated. -/
theorem adderIsOneExactFold : Obligations.AdderIsOneExactFold :=
  ⟨ocadd16_toNat_eq_pass, ocadd16_toNat_eq_fold, ocadd16_eq_zero_iff,
    by decide, by decide, by decide, by decide⟩

/-! ### PUSHB and PUSHW (R60, R61, R64) -/

theorem byteContribution_eq (phase : Bool) (b : Byte) :
    byteContribution phase b = if phase = false then b ++ 0x00#8 else 0x00#8 ++ b := by
  cases phase <;> rfl

theorem wordContribution_eq (phase : Bool) (w : Half) :
    wordContribution phase w =
      if phase = false then w else w.extractLsb' 0 8 ++ w.extractLsb' 8 8 := by
  cases phase <;> rfl

/-- A write to CMD is the instruction of the command its data decodes to (R26). -/
theorem exec_wrCmd {d : Word} {c : Command} (h : decodeCommand d = c) (s : State) :
    exec (.wrCmd d) s = exec c.toInstr s :=
  (exec_of_command (i := .wrCmd d) (congrArg some h) s).trans (exec_of_command (command?_toInstr c) s).symm

/-- Settles O4: the effect of PUSHB (`pushbEffect_eq`), and the decoder at OP 2 (`decoderByOpcode`). -/
theorem pushbJoinsOneByte : Obligations.PushbJoinsOneByte := by
  refine ⟨fun b s hrun => ?effect, fun d s hop => ?words⟩
  case effect =>
    rw [exec_of_command rfl, State.busWrite_of_running _ hrun, commandEffect_pushb, pushbEffect_eq,
      byteContribution_eq]
  case words =>
    obtain ⟨_, _, hpushb, _⟩ := decoderByOpcode d
    exact exec_wrCmd (hpushb hop) s

/-- Settles O5: the effect of PUSHW (`pushwEffect_eq`), and the decoder at OP 3 (`decoderByOpcode`). -/
theorem pushwJoinsTwoBytes : Obligations.PushwJoinsTwoBytes := by
  refine ⟨fun w s hrun => ?effect, fun d s hop => ?words⟩
  case effect =>
    rw [exec_of_command rfl, State.busWrite_of_running _ hrun, commandEffect_pushw, pushwEffect_eq,
      wordContribution_eq]
  case words =>
    obtain ⟨_, _, _, hpushw, _⟩ := decoderByOpcode d
    exact exec_wrCmd (hpushw hop) s

/-- Settles O7: the two pushes have the effect of PUSHW (`pushwEffect_eq_pushb_pushb`), and no effect while
reset is asserted, as PUSHW has none. -/
theorem pushwIsTwoPushb : Obligations.PushwIsTwoPushb := by
  intro w s
  refine ⟨_, _, exec_of_command rfl s, exec_of_command rfl _, ?_⟩
  have heffect : commandEffect (.pushw w) = fun r =>
      commandEffect (.pushb (w.extractLsb' 0 8)) (commandEffect (.pushb (w.extractLsb' 8 8)) r) :=
    funext (pushwEffect_eq_pushb_pushb w)
  rw [exec_of_command rfl, State.busWrite_busWrite, heffect]

/-! ### What the registers hold of the bytes pushed (R62, R63, R67, R68) -/

/-- Settles O50: a step with no cycle to take stands still, any other one leaves the effect of its bus
cycle (`step_cycle_view`), which holds the history continued by it. -/
theorem everyStepKeepsTheHistory : Obligations.EveryStepKeepsTheHistory := by
  intro h s t hold hstep
  refine ⟨fun hq => ?still, fun c rest hq => ?cycle⟩
  case still => rwa [step_of_empty_queue hq hstep]
  case cycle => exact step_cycle_view hq hstep ▸ hold.cycleEffect c

/-- Settles O52: the code is the complement of the folded sum, which ACC holds. -/
theorem runningCodeIsTheCode : Obligations.RunningCodeIsTheCode := fun _ _ hold => hold.not_acc

end Sys2Proof.Machine
end

section
/-! SUPPORT. Proofs of the statements on the result commands (42_result.md): FINAL and VERIFY. -/

namespace Sys2Proof.Machine

/-- Settles O8: the effect of FINAL (`finalEffect_eq`), and the decoder at OP 4 (`decoderByOpcode`). -/
theorem finalLatchesTheCode : Obligations.FinalLatchesTheCode := by
  refine ⟨fun s hrun => ?effect, fun d s hop => ?words⟩
  case effect =>
    rw [exec_of_command rfl, State.busWrite_of_running _ hrun, commandEffect_final, finalEffect_eq]
  case words =>
    obtain ⟨_, _, _, _, hfinal, _⟩ := decoderByOpcode d
    exact exec_wrCmd (hfinal hop) s

/-- Settles O9: the effect of VERIFY (`verifyEffect_eq`), whose verdict is the equality, and the decoder at
OP 5 (`decoderByOpcode`). -/
theorem verifyComparesTheCode : Obligations.VerifyComparesTheCode := by
  refine ⟨fun c s hrun => ?effect, fun d s hop => ?words⟩
  case effect =>
    rw [exec_of_command rfl, State.busWrite_of_running _ hrun, commandEffect_verify, verifyEffect_eq,
      beq_eq_decide]
  case words =>
    obtain ⟨_, _, _, _, _, hverify, _⟩ := decoderByOpcode d
    exact exec_wrCmd (hverify hop) s

end Sys2Proof.Machine
end

section
/-! SUPPORT. Proofs of the statements on the control commands and on register access (43_control.md): NOP,
CLR and ILLEGAL, the reads of the four registers, and the writes to the three read-only ones. -/

namespace Sys2Proof

/-! ### The words of the ILLEGAL rows (R71) -/

theorem Command.eq_illegalLow_of_row {c : Command} (h : c.row = ⟨0x60000000#32, 0xE0000000#32⟩) :
    c = .illegalLow c.op := by
  cases c
  case illegalLow => rfl
  all_goals simp [row] at h

theorem Command.eq_illegalHigh_of_row {c : Command} (h : c.row = ⟨0x80000000#32, 0x80000000#32⟩) :
    c = .illegalHigh c.op := by
  cases c
  case illegalHigh => rfl
  all_goals simp [row] at h

/-- A word of a row of the opcode map decodes to a command of that row (R43). -/
theorem row_decodeCommand_of_hit {d : Word} {row : OpcodeRow} (hmem : row ∈ opcodeMap)
    (hit : d &&& row.mask = row.matchBits) : (decodeCommand d).row = row := by
  obtain ⟨_, hits⟩ := opcodeRowsPartitionTheWords d
  exact ((hits row hmem).1 (beq_iff_eq.2 hit)).symm

theorem decodeCommand_of_illegalLow {d : Word} (h : d &&& 0xE0000000#32 = 0x60000000#32) :
    decodeCommand d = .illegalLow (opField d) := by
  have hrow := row_decodeCommand_of_hit (row := ⟨0x60000000#32, 0xE0000000#32⟩) (by decide) h
  exact op_decodeCommand d ▸ Command.eq_illegalLow_of_row hrow

theorem decodeCommand_of_illegalHigh {d : Word} (h : d &&& 0x80000000#32 = 0x80000000#32) :
    decodeCommand d = .illegalHigh (opField d) := by
  have hrow := row_decodeCommand_of_hit (row := ⟨0x80000000#32, 0x80000000#32⟩) (by decide) h
  exact op_decodeCommand d ▸ Command.eq_illegalHigh_of_row hrow

end Sys2Proof

namespace Sys2Proof.Machine

/-! ### CLR and NOP (R69, R70) -/

/-- Settles O11: the effect of CLR is the reset values, the decoder at OP 1 (`decoderByOpcode`), and every
instruction without a CLR keeps a recorded error (`recordedErrorStaysUntilClr`). -/
theorem clrStartsANewPayload : Obligations.ClrStartsANewPayload := by
  refine ⟨fun s hrun => ?effect, fun d s hop => ?words, fun i s t herr ht hcleared => ?onlyClr⟩
  case effect =>
    rw [exec_of_command rfl, State.busWrite_of_running _ hrun, commandEffect_clr, Regs.reset]
  case words =>
    obtain ⟨_, hclr, _⟩ := decoderByOpcode d
    exact exec_wrCmd (hclr hop) s
  case onlyClr =>
    by_contra hclr
    obtain ⟨t', ht', herr', _⟩ := recordedErrorStaysUntilClr i s herr hclr
    obtain rfl : t = t' := by simpa [ht] using ht'
    simp [hcleared] at herr'

theorem exec_nop (s : State) : exec .nop s = .next s := rfl

/-- Settles O10: NOP answers its state (`exec_nop`), and the decoder at OP 0 (`decoderByOpcode`). -/
theorem nopChangesNothing : Obligations.NopChangesNothing := by
  refine ⟨exec_nop, fun d s hop => ?words⟩
  obtain ⟨hnop, _⟩ := decoderByOpcode d
  exact (exec_wrCmd (hnop hop) s).trans (exec_nop s)

/-! ### The commands and writes that raise an error (R71, R72) -/

/-- An error raised with reset deasserted is recorded if none is, and nothing else changes (R77). -/
theorem State.busWrite_raiseErr_of_running {s : State} (cause : BitVec 2) (hrun : s.resetIn = false) :
    s.busWrite (Regs.raiseErr cause) = { s with regs :=
      if s.regs.err = true then s.regs else { s.regs with err := true, ecause := cause } } := by
  rw [State.busWrite_of_running _ hrun, Regs.raiseErr]

theorem exec_illegal {i : Instr} {c : Command} (hi : i.command? = some c) (hc : c.isIllegal = true)
    (s : State) : exec i s = .next (s.busWrite (Regs.raiseErr causeIllegalOp)) := by
  rw [exec_of_command hi]
  cases c
  case illegalLow | illegalHigh => rfl
  all_goals cases hc

/-- Settles O12: both rows raise the error (`exec_illegal`) and do nothing else
(`State.busWrite_raiseErr_of_running`), and the words of a row decode to its command
(`decodeCommand_of_illegalLow`, `decodeCommand_of_illegalHigh`). -/
theorem illegalOnlyRaisesItsError : Obligations.IllegalOnlyRaisesItsError := by
  refine ⟨fun op s hrun => ?low, fun op s hrun => ?high, fun d s hrow => ?lowWords,
    fun d s hrow => ?highWords⟩
  case low | high =>
    exact (exec_illegal rfl rfl s).trans
      (congrArg Host.Outcome.next (State.busWrite_raiseErr_of_running causeIllegalOp hrun))
  case lowWords => exact exec_wrCmd (decodeCommand_of_illegalLow hrow) s
  case highWords => exact exec_wrCmd (decodeCommand_of_illegalHigh hrow) s

/-- Settles O13: each of the three writes is the error (`exec_writeReadOnly`), and that is all it does
(`State.busWrite_raiseErr_of_running`). -/
theorem readOnlyWriteOnlyRaisesItsError : Obligations.ReadOnlyWriteOnlyRaisesItsError := by
  intro i d s hi hrun
  have hwrite : exec i s = .next (s.busWrite (roWriteEffect d)) := by
    rcases hi with rfl | rfl | rfl
    · exact exec_writeReadOnly (a := .status) nofun d s
    · exact exec_writeReadOnly (a := .acc) nofun d s
    · exact exec_writeReadOnly (a := .result) nofun d s
  exact hwrite.trans
    (congrArg Host.Outcome.next (State.busWrite_raiseErr_of_running causeRoWrite hrun))

/-! ### The words a host reads (R73-R75) -/

/-- With reset deasserted a read returns the word of its register, and nothing else changes (R27). -/
theorem exec_readInstr_of_running (a : BusReg) {s : State} (hrun : s.resetIn = false) :
    exec a.readInstr s = .next { s with rdata := some (s.regs.readWord a) } := by
  rw [exec_readInstr, State.busRead, State.view_of_running hrun]

/-- R18: the bits of STATUS above the flags are zero. -/
theorem Regs.statusWord_reserved (r : Regs) : r.statusWord.extractLsb' 7 25 = 0#25 := by
  apply BitVec.eq_of_getLsbD_eq
  intro k hk
  simp only [Regs.statusWord, BitVec.getLsbD_extractLsb', BitVec.getLsbD_append]
  simp [show ¬ 7 + k < 1 by omega]

theorem Regs.readWord_acc (r : Regs) : r.readWord .acc = 0#16 ++ r.acc :=
  BitVec.setWidth_eq_append (by decide)

theorem Regs.readWord_result (r : Regs) : r.readWord .result = 0#16 ++ r.result :=
  BitVec.setWidth_eq_append (by decide)

/-- Settles O14: the word is STATUS, with its flags (`Regs.statusWord_flags`), its cause
(`Regs.statusWord_ecause`) and its zeros (`Regs.statusWord_reserved`) in their places. -/
theorem readStatusReturnsTheFlags : Obligations.ReadStatusReturnsTheFlags := by
  intro s hrun
  obtain ⟨hphase, hdone, hmvalid, hmatched, herr⟩ := s.regs.statusWord_flags
  exact ⟨s.regs.statusWord, exec_readInstr_of_running .status hrun, rfl, hphase, hdone, hmvalid, hmatched,
    herr, s.regs.statusWord_ecause, s.regs.statusWord_reserved⟩

/-- Settles O15: a read of ACC or RESULT (`exec_readInstr_of_running`) returns the register with zeros above
it (`Regs.readWord_acc`, `Regs.readWord_result`). -/
theorem readAccAndResult : Obligations.ReadAccAndResult := by
  refine ⟨fun s hrun => ?acc, fun s hrun => ?result⟩
  case acc => exact s.regs.readWord_acc ▸ exec_readInstr_of_running .acc hrun
  case result => exact s.regs.readWord_result ▸ exec_readInstr_of_running .result hrun

/-- Settles O16: a read of CMD (`exec_readInstr`) returns zero whatever registers the bus sees. -/
theorem readCmdReturnsZero : Obligations.ReadCmdReturnsZero := exec_readInstr .cmd

end Sys2Proof.Machine
end

section
/-! SUPPORT. Proofs of the statements on exceptions (60_exceptions.md): which instructions raise an error,
what a raised error records, and that the engine goes on whatever ERR and ECAUSE hold. -/

namespace Sys2Proof

/-! ### The instructions that raise an error (R78) -/

/-- Among well-formed commands the illegal ones are those of OP 6 and above (R43). -/
theorem Command.isIllegal_iff_op {c : Command} (hwf : c.toInstr.wf = true) :
    c.isIllegal = true ↔ 0x6#4 ≤ c.op := by
  cases c
  case illegalLow op =>
    have hrow : op = 0x6#4 ∨ op = 0x7#4 := by simpa [toInstr, Instr.wf, opInLowIllegalRow] using hwf
    refine iff_of_true rfl ?_
    rcases hrow with rfl | rfl <;> decide
  case illegalHigh op =>
    have hrow : 0x8#4 ≤ op := by simpa [toInstr, Instr.wf, opInHighIllegalRow] using hwf
    exact iff_of_true rfl (BitVec.le_trans (by decide) hrow)
  all_goals exact iff_of_false Bool.false_ne_true (by simp [op])

theorem isIllegal_decodeCommand (d : Word) :
    (decodeCommand d).isIllegal = true ↔ 0x6#4 ≤ opField d :=
  op_decodeCommand d ▸ Command.isIllegal_iff_op (decodeCommand_wf d)

/-- An instruction that carries a command to CMD writes no read-only register. -/
theorem writesReadOnly_of_command {i : Instr} {c : Command} (h : i.command? = some c) :
    i.writesReadOnly = false := by
  cases i
  case wrStatus | wrAcc | wrResult => cases h
  all_goals rfl

end Sys2Proof

namespace Sys2Proof.Machine

/-- The cause recorded by an instruction that raises an error (R78). -/
def errorCause (i : Instr) : BitVec 2 :=
  if i.writesReadOnly = true then causeRoWrite else causeIllegalOp

theorem errorCause_of_write {i : Instr} (h : i.writesReadOnly = true) : errorCause i = causeRoWrite :=
  if_pos h

theorem errorCause_of_illegal {i : Instr} (h : i.carries Command.isIllegal = true) :
    errorCause i = causeIllegalOp := by
  obtain ⟨c, hc, _⟩ := carries_iff.1 h
  exact if_neg (by simp [writesReadOnly_of_command hc])

theorem exec_writesReadOnly {i : Instr} (h : i.writesReadOnly = true) (s : State) :
    exec i s = .next (s.busWrite (Regs.raiseErr causeRoWrite)) := by
  cases i
  case wrStatus | wrAcc | wrResult => rfl
  all_goals cases h

/-- An illegal command and a write to a read-only register do nothing but raise their error. -/
theorem exec_of_error {i : Instr} (h : i.carries Command.isIllegal = true ∨ i.writesReadOnly = true)
    (s : State) : exec i s = .next (s.busWrite (Regs.raiseErr (errorCause i))) := by
  rcases h with hill | hwrite
  · obtain ⟨c, hc, hcill⟩ := carries_iff.1 hill
    rw [errorCause_of_illegal hill]
    exact exec_illegal hc hcill s
  · rw [errorCause_of_write hwrite]
    exact exec_writesReadOnly hwrite s

/-- Settles O20: the instruction does nothing but raise its error (`exec_of_error`), which is recorded only if
none is (`Regs.raiseErr_of_noErr`, `Regs.raiseErr_of_err`). -/
theorem firstErrorCauseIsKept : Obligations.FirstErrorCauseIsKept := by
  intro i s hrun hraises
  refine ⟨_, exec_of_error hraises s, fun herr => ?first, fun herr => ?later⟩
  case first =>
    rw [State.busWrite_of_running _ hrun, Regs.raiseErr_of_noErr _ herr]
    rfl
  case later => rw [State.busWrite_of_running _ hrun, Regs.raiseErr_of_err _ herr]

/-- No legal command brings an error where none is recorded; CLR puts ERR and ECAUSE at 0 anyway. -/
theorem commandEffect_noError {c : Command} (hlegal : c.isIllegal = false) {r : Regs}
    (herr : r.err = false) (hcause : r.ecause = 0b00#2) :
    (commandEffect c r).err = false ∧ (commandEffect c r).ecause = 0b00#2 := by
  by_cases hclr : c = .clr
  · subst hclr
    exact ⟨rfl, rfl⟩
  · obtain ⟨herr', hcause'⟩ := commandEffect_error (c := c) (by simp [hlegal, hclr]) r
    exact ⟨herr'.trans herr, hcause'.trans hcause⟩

/-- Settles O21: the two kinds of erroneous instructions record their cause (`firstErrorCauseIsKept`), any
other one keeps ERR and ECAUSE at 0 (`commandEffect_noError`), and OP tells the illegal words
(`isIllegal_decodeCommand`). -/
theorem errorCausesAndNoOthers : Obligations.ErrorCausesAndNoOthers := by
  intro i s t hrun herr hcause ht
  have recorded (h : i.carries Command.isIllegal = true ∨ i.writesReadOnly = true) :
      t.regs.err = true ∧ t.regs.ecause = errorCause i := by
    obtain ⟨t', ht', hfirst, _⟩ := firstErrorCauseIsKept i s hrun h
    obtain rfl : t = t' := by simpa [ht] using ht'
    rw [hfirst herr]
    exact ⟨rfl, rfl⟩
  refine ⟨fun hill => ?illegal, fun hwrite => ?write, fun hlegal hwrite => ?noOther,
    fun d hd => ?illegalWords⟩
  case illegal => exact (recorded (.inl hill)).imp_right (·.trans (errorCause_of_illegal hill))
  case write => exact (recorded (.inr hwrite)).imp_right (·.trans (errorCause_of_write hwrite))
  case noOther =>
    refine exec_keeps (fun r => r.err = false ∧ r.ecause = 0b00#2) ht ⟨herr, hcause⟩
      (fun c hc => ?_) (fun hw => absurd hw (by simp [hwrite]))
    exact commandEffect_noError (carries_of_command hc Command.isIllegal ▸ hlegal) herr hcause
  case illegalWords =>
    subst hd
    exact isIllegal_decodeCommand d

/-! ### ERR and ECAUSE influence nothing else (R83, R88) -/

/-- The registers with another ERR and ECAUSE. -/
def Regs.withError (e : Bool) (cause : BitVec 2) (r : Regs) : Regs :=
  { r with err := e, ecause := cause }

/-- A raised error is a change of ERR and ECAUSE only. -/
theorem Regs.raiseErr_eq_withError (r : Regs) (cause : BitVec 2) :
    ∃ e' cause', r.raiseErr cause = r.withError e' cause' := by
  cases herr : r.err
  · exact ⟨true, cause, Regs.raiseErr_of_noErr cause herr⟩
  · exact ⟨r.err, r.ecause, Regs.raiseErr_of_err cause herr⟩

theorem Regs.raiseErr_withError (r : Regs) (cause : BitVec 2) (e : Bool) (k : BitVec 2) :
    ∃ e' k', (r.withError e k).raiseErr cause = (r.raiseErr cause).withError e' k' := by
  obtain ⟨e₁, k₁, h₁⟩ := r.raiseErr_eq_withError cause
  obtain ⟨e₂, k₂, h₂⟩ := (r.withError e k).raiseErr_eq_withError cause
  exact ⟨e₂, k₂, by rw [h₁, h₂]; rfl⟩

/-- From registers that differ in ERR and ECAUSE only a command leads to such registers again. -/
theorem commandEffect_withError (c : Command) (r : Regs) (e : Bool) (k : BitVec 2) :
    ∃ e' k', commandEffect c (r.withError e k) = (commandEffect c r).withError e' k' := by
  cases c
  case clr => exact ⟨Regs.reset.err, Regs.reset.ecause, rfl⟩
  case nop | pushb | pushw | final | verify => exact ⟨e, k, rfl⟩
  case illegalLow | illegalHigh => exact r.raiseErr_withError causeIllegalOp e k

theorem instrEffect_withError (i : Instr) (r : Regs) (e : Bool) (k : BitVec 2) :
    ∃ e' k', instrEffect i (r.withError e k) = (instrEffect i r).withError e' k' := by
  refine instrEffect_cases (i := i) (r := r)
    (motive := fun r' => ∃ e' k', instrEffect i (r.withError e k) = r'.withError e' k')
    (fun c hc => ?command) (fun hc hw => ?write) (fun hc hw => ?read)
  case command => exact instrEffect_of_command hc (r.withError e k) ▸ commandEffect_withError c r e k
  case write => exact instrEffect_of_write hc hw (r.withError e k) ▸ r.raiseErr_withError causeRoWrite e k
  case read => exact ⟨e, k, instrEffect_of_read hc hw _⟩

/-- Settles O23: the registers answered (`exec_spec`) differ in ERR and ECAUSE only, as those before do
(`instrEffect_withError`); while reset is asserted they are those before. -/
theorem errorsDoNotBlockTheEngine : Obligations.ErrorsDoNotBlockTheEngine := by
  intro i s e cause
  obtain ⟨t, ht, hregs, _⟩ := exec_spec i s
  obtain ⟨t', ht', hregs', _⟩ := exec_spec i { s with regs := s.regs.withError e cause }
  have hdiffer : ∃ e' cause', t'.regs = t.regs.withError e' cause' := by
    rw [hregs, hregs']
    cases s.resetIn
    · exact instrEffect_withError i s.regs e cause
    · exact ⟨e, cause, rfl⟩
  obtain ⟨e', cause', hdiffer⟩ := hdiffer
  refine ⟨t, t', ht, ht', ?_⟩
  rw [hdiffer]
  exact ⟨rfl, rfl, rfl, rfl, rfl, rfl⟩

/-! ### The one stop (R76, R78) -/

theorem step_of_reservedCause {s : State} (h : s.view.ecause = causeReserved) :
    step s = .fault .ecauseReserved := by
  rcases step_inversion s with ⟨_, hfault⟩ | ⟨hne, _⟩
  · exact hfault
  · exact absurd h hne

/-- Settles O49: the reserved cause faults (`step_of_reservedCause`), nothing else stops a step
(`step_total`), and registers in order do not hold it (`Regs.Ok.ecause_ne`). -/
theorem onlyTheReservedCauseFaults : Obligations.OnlyTheReservedCauseFaults := fun _ =>
  ⟨step_of_reservedCause, step_total, fun hok => step_total hok.view.ecause_ne⟩

end Sys2Proof.Machine
end

section
/-! SUPPORT. Proofs of the statements on reset and hazards (70_reset_and_hazards.md): the state after reset,
what a cycle with reset asserted or deasserted does, that only writes and reset change registers, that a read
sees the write before it, and payloads pushed without a CLR. -/

namespace Sys2Proof.Machine

/-! ### Bus cycles at the reset input (R82, R90) -/

/-- A step from a state without the reserved cause samples reset in a cycle without a transaction. -/
theorem step_of_idle {s : State} {c : BusCycle} {rest : List BusCycle}
    (hc : s.view.ecause ≠ causeReserved) (hq : s.queue = c :: rest) (ht : c.txn = none) :
    step s = .next (s.takeCycle c rest) := by
  rcases step_inversion s with
    ⟨hr, _⟩ | ⟨_, ⟨hnil, _⟩ | ⟨c', rest', hq', ⟨_, hstep⟩ | ⟨t, hsome, _⟩⟩⟩
  · exact absurd hr hc
  · simp [hq] at hnil
  · obtain ⟨rfl, rfl⟩ := List.cons.inj (hq.symm.trans hq')
    exact hstep
  · obtain ⟨rfl, rfl⟩ := List.cons.inj (hq.symm.trans hq')
    simp [ht] at hsome

/-- A cycle with reset asserted puts the registers at their reset values (R89). -/
theorem State.takeCycle_asserting {c : BusCycle} (h : c.reset = true) (s : State) (rest : List BusCycle) :
    s.takeCycle c rest = { s with regs := Regs.reset, resetIn := true, queue := rest } := by
  rw [State.takeCycle, h]
  rfl

/-- A cycle that deasserts reset finds the registers at their reset values (R90). -/
theorem State.takeCycle_deasserting {s : State} {c : BusCycle} (h : c.reset = false)
    (hreset : s.resetIn = true) (rest : List BusCycle) :
    s.takeCycle c rest = { s with regs := Regs.reset, resetIn := false, queue := rest } := by
  simp [State.takeCycle, State.sampleReset, State.view_in_reset, h, hreset]

/-- Every register reads as zero in the reset state. -/
theorem Regs.readWord_reset (a : BusReg) : Regs.reset.readWord a = 0#32 := by
  cases a <;> rfl

theorem State.busRead_in_reset {s : State} (h : s.resetIn = true) (a : BusReg) :
    s.busRead a = { s with rdata := some 0#32 } := by
  rw [State.busRead, State.view_in_reset h, Regs.readWord_reset]

/-- Settles O3: the step runs the transaction (`step_of_txn`), if there is one (`step_of_idle`), in the state
with the cycle taken. In a cycle with reset asserted (`State.takeCycle_asserting`) a write has no effect and a
read returns zero; a cycle that deasserts it is taken in the reset state (`State.takeCycle_deasserting`). -/
theorem resetInputDominates : Obligations.ResetInputDominates := by
  intro s c rest hcause hq
  refine ⟨fun hr a d ht => ?write, fun hr a ht => ?read, fun hr hin ht => ?idle, fun hr hin t ht => ?txn⟩
  case write =>
    obtain ⟨f, hf⟩ := exec_write (BusReg.ofIndex a) d (s.takeCycle c rest)
    rw [step_of_txn hcause hq ht, decodeTxn, hf, State.busWrite_in_reset f hr,
      State.takeCycle_asserting hr]
  case read =>
    rw [step_of_txn hcause hq ht, exec_read, State.busRead_in_reset hr, State.takeCycle_asserting hr]
  case idle => rw [step_of_idle hcause hq ht, State.takeCycle_deasserting hr hin]
  case txn => rw [step_of_txn hcause hq ht, State.takeCycle_deasserting hr hin]

/-! ### The state after reset (R89) -/

/-- Settles O1: the reset values are those of R24, CLR puts every register at them (`commandEffect_clr`), and
so does a cycle with reset asserted (`State.takeCycle_asserting`). -/
theorem resetAndClrGiveTheSameState : Obligations.ResetAndClrGiveTheSameState := by
  refine ⟨rfl, rfl, fun s hrun => ?clr, fun s rest hcause hq => ?reset⟩
  case clr =>
    rw [exec_of_command rfl, State.busWrite_of_running _ hrun, commandEffect_clr, State.reset]
  case reset => rw [step_of_idle hcause hq rfl, State.takeCycle_asserting rfl, State.reset]

/-- Settles O47: the reset values are in order (`Regs.reset_ok`). -/
theorem invariantHoldsAtReset : Obligations.InvariantHoldsAtReset where
  regs := Regs.reset_ok
  inReset _ := rfl

/-! ### What changes registers (R97) -/

theorem instrEffect_read (a : RegIndex) (r : Regs) : instrEffect (decodeTxn (.read a)) r = r := by
  rw [decodeTxn]
  cases BusReg.ofIndex a <;> rfl

/-- A cycle with reset deasserted that writes nothing leaves the registers as they are. -/
theorem cycleEffect_of_no_write {c : BusCycle} (hr : c.reset = false)
    (hw : ¬∃ a d, c.txn = some (.write a d)) (r : Regs) : cycleEffect c r = r := by
  cases ht : c.txn with
  | none => exact cycleEffect_idle hr ht r
  | some t =>
    cases t with
    | read a => rw [cycleEffect_txn hr ht, instrEffect_read]
    | write a d => exact absurd ⟨a, d, ht⟩ hw

/-- Settles O45: a step with no cycle to take stands still (`step_of_empty_queue`), and the effect of a cycle
(`step_cycle_view`) without a write or reset is none (`cycleEffect_of_no_write`). -/
theorem onlyWritesAndResetChangeRegisters : Obligations.OnlyWritesAndResetChangeRegisters := by
  refine ⟨fun s t hstep hview => ?changed, fun s hcause hq => ?still⟩
  case changed =>
    cases hq : s.queue with
    | nil => exact absurd (congrArg State.view (step_of_empty_queue hq hstep)) hview
    | cons c rest =>
      refine ⟨c, rest, rfl, ?_⟩
      by_contra hno
      obtain ⟨hr, hw⟩ := not_or.1 hno
      have hsame := cycleEffect_of_no_write (Bool.eq_false_of_not_eq_true hr) hw s.view
      exact hview ((step_cycle_view hq hstep).trans hsame)
  case still =>
    obtain ⟨t, ht⟩ := step_total hcause
    obtain rfl := step_of_empty_queue hq ht
    exact ht

/-! ### A read after a write (R95) -/

/-- A read right after a command returns the word of the registers the command left. -/
theorem execAll_command_read {i : Instr} {c : Command} (hi : i.command? = some c) (a : BusReg) {s : State}
    (hrun : s.resetIn = false) :
    execAll [i, a.readInstr] s = .next { s with
      regs := commandEffect c s.regs, rdata := some ((commandEffect c s.regs).readWord a) } := by
  rw [execAll_cons (exec_of_command hi s), State.busWrite_of_running _ hrun]
  exact execAll_cons (exec_readInstr_of_running a (s := { s with regs := commandEffect c s.regs }) hrun) []

/-- Settles O46: a read returns the word of the state it finds (`exec_read`), so that after a command it is
the word the command left (`execAll_command_read`): the complement of ACC after FINAL, and its comparison with
the operand after VERIFY. -/
theorem readAfterWrite : Obligations.ReadAfterWrite := by
  refine ⟨fun a a' d s t _ => exec_read a' t, fun h s hrun hold => ?code, fun h c s hrun hold => ?verdict⟩
  case code =>
    have hrunFinal := execAll_command_read (i := .final) rfl .result hrun
    exact ⟨_, hrunFinal, congrArg (fun code => some (code.setWidth 32)) hold.not_acc⟩
  case verdict =>
    obtain ⟨_, _, hmvalid, hmatched, _⟩ := (verifyEffect c s.regs).statusWord_flags
    have hrunVerify := execAll_command_read (i := .verify c) rfl .status hrun
    exact ⟨_, _, hrunVerify, rfl, hmvalid, hmatched.trans (congrArg (· == c) hold.not_acc)⟩

/-! ### Payloads without a CLR (R92, R93) -/

/-- A run continued with pushes and a command after them: the pushed bytes join what the run left. -/
theorem execAll_append_pushBytes {is : List Instr} {s t : State} (h : execAll is s = .next t)
    (hrun : t.resetIn = false) (p : List Byte) {i : Instr} {c : Command} (hi : i.command? = some c) :
    execAll (is ++ pushBytes p ++ [i]) s =
      .next { t with regs := commandEffect c (pushAll p t.regs) } := by
  rw [List.append_assoc, execAll_append h, execAll_append (execAll_pushBytes p t),
    execAll_cons (exec_of_command hi _), State.busWrite_busWrite, State.busWrite_of_running _ hrun,
    execAll]

/-- Settles O2: the reset state holds the empty payload (`Holds.start`), and so the pushes, with no CLR before
them (`execAll_append_pushBytes`), hold theirs (`holds_pushAll_reset`), whose code FINAL latches. -/
theorem firstPayloadNeedsNoClr : Obligations.FirstPayloadNeedsNoClr := by
  refine ⟨Holds.start.not_acc, fun p => ?payload⟩
  have hrun := execAll_append_pushBytes (is := []) (s := State.reset) rfl rfl p (i := .final) rfl
  exact ⟨_, hrun, rfl, (holds_pushAll_reset p).not_acc⟩

/-- Settles O56: FINAL keeps the bytes pushed as the history (`Holds.commandEffect`), the second payload's
join them (`Holds.pushAll`), and neither FINAL nor a push raises an error (`pushAll_err`). -/
theorem missingClrConcatenates : Obligations.MissingClrConcatenates := by
  intro p q s hrun
  have hcsum := execAll_clr_pushBytes p (i := .final) rfl hrun
  have hboth := execAll_append_pushBytes hcsum hrun q (i := .final) rfl
  have hold := ((holds_pushAll_reset p).commandEffect .final).pushAll q
  exact ⟨_, hboth, hold.not_acc, (pushAll_err q _).trans (pushAll_err p _)⟩

end Sys2Proof.Machine
end
